-- ==== Sys2Proof/Word.lean ====
section
/-! DEFINITION. The word types of the engine: command words, buffer bytes, operand fields, clock values. -/

namespace Sys2Proof

/-- A command word or bus word, 32 bits (R90, R70). -/
abbrev Word := BitVec 32

/-- A buffer byte, glyph column or bitmap byte, 8 bits (R23, R66, R67). -/
abbrev Byte := BitVec 8

/-- A 16-bit field: half an operand word, a cursor register, a reported dimension (R93, R31, R35). -/
abbrev Half := BitVec 16

/-- A value of the throttle clock, `TIME_BITS` = 64 bits (R8, R217). -/
abbrev Time := BitVec 64

end Sys2Proof
end

