-- ==== Sys2Proof/Config.lean ====
section
/-! DEFINITION. The parameters of an instance (R8): fixed for its lifetime, written by nothing. -/

namespace Sys2Proof

/-- The display type tag `TYPE` (R8, R37): readable in `STATUS`, without any effect. -/
inductive DisplayType where
  /-- encoded 0 in `STATUS` -/
  | monochrome
  /-- encoded 1 in `STATUS` -/
  | grayscale
  deriving DecidableEq, Repr

/-- The parameters of R8 that the spec leaves to the instance.
`GLYPH_W`, `GLYPH_H`, `TIME_BITS`, `MAX_DEPTH` and `COORD_BITS` have one value in the spec and are not here. -/
structure Params where
  /-- `WIDTH`, logical pixel columns -/
  width : Nat
  /-- `HEIGHT`, logical pixel rows -/
  height : Nat
  /-- `RES_W`, reporting only -/
  resW : Half
  /-- `RES_H`, reporting only -/
  resH : Half
  /-- `TYPE` -/
  type : DisplayType
  /-- `GLYPH_ROM`, flat: byte `5*(c - 0x20) + col` is column `col` of the glyph of code `c` (R66) -/
  glyphRom : List Byte
  /-- `MIN_UPDATE_INTERVAL` in clock ticks; as wide as the register `INTERVAL` that shows it (R42) -/
  minUpdateInterval : Word
  deriving DecidableEq, Repr

/-- `NBYTES = ceil(WIDTH*HEIGHT/8)` (R8, R63). -/
def Params.nbytes (p : Params) : Nat := (p.width * p.height + 7) / 8

/-- The ranges R8 gives the parameters, and the one constraint R66 puts on the glyph table's contents: the space
glyph is blank. -/
abbrev Params.wf (p : Params) : Prop :=
  1 ≤ p.width ∧ p.width ≤ 32767 ∧ 1 ≤ p.height ∧ p.height ≤ 32767 ∧
    p.glyphRom.length = 475 ∧ p.glyphRom.take 5 = [0, 0, 0, 0, 0]

/-- The example instantiation of the glyph table that 42_text_bitmap.md uses: glyphs for '!' and 'A', every other
glyph blank. -/
def Config.exampleRom : List Byte :=
  List.replicate 5 0 ++ [0x00, 0x00, 0x5F, 0x00, 0x00] ++ List.replicate 155 0 ++
    [0x7C, 0x12, 0x11, 0x12, 0x7C] ++ List.replicate 305 0

/-- The instance that `State.reset` is a reset of. DESIGN CHOICE (log entry 1): the spec leaves every parameter but
the interval open; the statements are about all instances. -/
def Config.resetInstance : Params where
  width := 128
  height := 64
  resW := 128
  resH := 64
  type := .monochrome
  glyphRom := Config.exampleRom
  minUpdateInterval := 16667

end Sys2Proof
end

