-- ==== Sys2Proof/Syntax.lean ====
section
/-! DEFINITION. The 25 commands (R98), one constructor per row of the opcode table, operands in the order of the
assembler syntax (R102). -/

namespace Sys2Proof

/-- A decoded command. Coordinates, extents and radii are the mathematical integers of R13; 8-bit parameters are
natural numbers (R97); the boolean parameter is `V`. -/
inductive Instr where
  /-- 0x01 `BEGIN_UPDATE` (R130) -/
  | beginUpdate
  /-- 0x02 `END_UPDATE` (R131) -/
  | endUpdate
  /-- 0x03 `SET_FORCE_UPDATE flag` (R133) -/
  | setForceUpdate (flag : Bool)
  /-- 0x04 `NEEDS_UPDATE` (R134) -/
  | needsUpdate
  /-- 0x05 `SET_THROTTLE flag` (R135) -/
  | setThrottle (flag : Bool)
  /-- 0x06 `INVERT flag` (R136) -/
  | invert (flag : Bool)
  /-- 0x07 `CLEAR` (R137) -/
  | clear
  /-- 0x08 `FILL` (R138) -/
  | fill
  /-- 0x09 `SET_ROTATION r` (R139) -/
  | setRotation (r : Nat)
  /-- 0x0A `SET_TEXT_SIZE s` (R195) -/
  | setTextSize (size : Nat)
  /-- 0x0B `WRITE c` (R196) -/
  | write (c : Nat)
  /-- 0x10 `SET_PIXEL x, y, on` (R121) -/
  | setPixel (x y : Int) (on : Bool)
  /-- 0x11 `GET_PIXEL x, y` (R123) -/
  | getPixel (x y : Int)
  /-- 0x12 `SET_CURSOR x, y` (R194) -/
  | setCursor (x y : Int)
  /-- 0x13 `DRAW_CHAR x, y, c, color, size` (R193) -/
  | drawChar (x y : Int) (c : Nat) (color : Bool) (size : Nat)
  /-- 0x20 `DRAW_BOX x, y, w, h, on` (R162) -/
  | drawBox (x y w h : Int) (on : Bool)
  /-- 0x21 `DRAW_RECT x, y, w, h` (R163) -/
  | drawRect (x y w h : Int)
  /-- 0x22 `DRAW_LINE x0, y0, x1, y1` (R165) -/
  | drawLine (x0 y0 x1 y1 : Int)
  /-- 0x23 `DRAW_HLINE x, y, w` (R166) -/
  | drawHLine (x y w : Int)
  /-- 0x24 `DRAW_VLINE x, y, h` (R167) -/
  | drawVLine (x y h : Int)
  /-- 0x25 `DRAW_CIRCLE x0, y0, r` (R169) -/
  | drawCircle (x0 y0 r : Int)
  /-- 0x26 `FILL_CIRCLE x0, y0, r` (R170) -/
  | fillCircle (x0 y0 r : Int)
  /-- 0x30 `DRAW_TRIANGLE x0, y0, x1, y1, x2, y2` (R171) -/
  | drawTriangle (x0 y0 x1 y1 x2 y2 : Int)
  /-- 0x31 `FILL_TRIANGLE x0, y0, x1, y1, x2, y2` (R173) -/
  | fillTriangle (x0 y0 x1 y1 x2 y2 : Int)
  /-- 0xA0 `DRAW_XBM x, y, w, h, bytes` (R198) -/
  | drawXbm (x y w h : Int) (bitmap : List Byte)
  deriving DecidableEq, Repr

end Sys2Proof
end

