-- ==== Sys2Proof/Machine/State.lean ====
section
/-! DEFINITION. The state of one engine (R20), as plain data, with its inputs and outputs as lists; the outcomes of a
step; the state after reset (R45, R240). -/

namespace Sys2Proof.Machine

/-- The bytes of one buffer, as (address, byte) cells with the addresses strictly rising and no cell of value 0x00:
an unlisted address reads 0x00, the value the spec gives every buffer byte at reset (R23, R24). -/
abbrev Memory := List Host.Cell

/-- The canonical form of a memory. -/
abbrev Memory.wf (m : Memory) : Prop := m.Pairwise (fun a b => a.1 < b.1) ∧ ∀ c ∈ m, c.2 ≠ 0

/-- One thing that reaches the engine from outside, in the one total order of R78. -/
inductive Input where
  /-- `MemWrite(offset, size, value)`: an access of the slave interface by the host (R70) -/
  | write (offset size : Nat) (value : Word)
  /-- `MemRead(offset, size)`: an access of the slave interface by the host or the sink (R70) -/
  | read (offset size : Nat)
  /-- the clock input takes the value `now` (R217) -/
  | clock (now : Time)
  /-- the reset input is asserted and reset completes (R240) -/
  | reset
  deriving DecidableEq, Repr

/-- A flush event `(now, b)` with `b` a copy of the front buffer (R214). -/
structure FlushEvent where
  time : Time
  frame : Memory
  deriving DecidableEq, Repr

/-- The architectural state of R20, the parameters of R8, the clock input, and the engine's inputs and outputs. -/
structure State where
  /-- the parameters of the instance (R8, R37); nothing writes them -/
  cfg : Params
  /-- `buffer`, the front buffer (R23) -/
  buffer : Memory
  /-- `backBuffer` (R24) -/
  backBuffer : Memory
  /-- `dirty` (R26) -/
  dirty : Bool
  /-- `forceUpdate` (R27) -/
  forceUpdate : Bool
  /-- `batchDepth` (R38); `batchUpdate` is `batchDepth ≠ 0` (R28) -/
  batchDepth : Byte
  /-- `throttleUpdates` (R29) -/
  throttleUpdates : Bool
  /-- `lastUpdateTime` (R30) -/
  lastUpdateTime : Time
  /-- `cursorX`, two's complement (R31) -/
  cursorX : Half
  /-- `cursorY`, two's complement (R32) -/
  cursorY : Half
  /-- `textSize` (R33) -/
  textSize : Byte
  /-- `rotation` (R34) -/
  rotation : BitVec 2
  /-- `displayWidth` (R35) -/
  displayWidth : Half
  /-- `displayHeight` (R35) -/
  displayHeight : Half
  /-- `inverted` (R36) -/
  inverted : Bool
  /-- the command decode latch: the words received since the last completed command (R39) -/
  decodeLatch : List Word
  /-- `resp`, the response latch (R40) -/
  resp : Bool
  /-- the value on the clock input `now` (R217); an input, not a register -/
  now : Time
  /-- the accesses and input changes still to come, in order (R78); the model's own field -/
  inputs : List Input
  /-- the flush events emitted so far, oldest first (R214) -/
  events : List FlushEvent
  /-- the values slave reads have returned so far, oldest first (R70); the model's own field -/
  readData : List Word
  deriving DecidableEq, Repr

/-- The reasons the machine stops with a fault: none, since the spec's set of exception causes is empty (R210). -/
inductive Fault where
  deriving DecidableEq, Repr

/-- The reasons the model gives no meaning to something. -/
inductive Refusal where
  /-- raised by an arm of `exec` whose instruction has no meaning yet; safe (no arm raises it now) -/
  | notModelled (mnemonic : String)
  /-- raised by the slave interface for an access that is not an aligned 32-bit access: outside the interface, the
  engine never sees one and a model should refuse it (R74, U3); safe -/
  | accessOutsideInterface (offset size : Nat)
  deriving DecidableEq, Repr

/-- The outcome of a command or of a step. -/
abbrev Result := Host.Outcome State Fault Refusal

/-- The state when reset completes, for an instance with parameters `p` (R45, R240): every field at its reset value,
no input pending, nothing sent out. The clock input's level 0 is a DESIGN CHOICE (log entry 2). -/
def State.resetWith (p : Params) : State where
  cfg := p
  buffer := []
  backBuffer := []
  dirty := false
  forceUpdate := false
  batchDepth := 0
  throttleUpdates := true
  lastUpdateTime := 0
  cursorX := 0
  cursorY := 0
  textSize := 1
  rotation := 0
  displayWidth := BitVec.ofNat 16 p.width
  displayHeight := BitVec.ofNat 16 p.height
  inverted := false
  decodeLatch := []
  resp := false
  now := 0
  inputs := []
  events := []
  readData := []

/-- The machine right after reset, for the instance that log entry 1 names. -/
def State.reset : State := State.resetWith Config.resetInstance

end Sys2Proof.Machine
end

