-- ==== Sys2Proof/Machine/Flags.lean ====
section
/-! DEFINITION. The predicates over the update flags and the throttle, and the `STATUS` word that shows them. -/

namespace Sys2Proof.Machine

/-- `dirty or forceUpdate`, the value of `needsUpdate()` (R44, R134). -/
def needsUpdate (s : State) : Bool := s.dirty || s.forceUpdate

/-- `batchUpdate`: a scope is open (R28). -/
abbrev scopeOpen (s : State) : Prop := s.batchDepth ≠ 0

/-- Whether a flush attempt made now is under the throttle interval: elapsed time modulo 2^64, strictly less (R128). -/
def throttled (s : State) : Bool :=
  s.throttleUpdates && decide ((s.now - s.lastUpdateTime).toNat < s.cfg.minUpdateInterval.toNat)

/-- The bit that shows `TYPE` in `STATUS` (R43). -/
def typeBit (t : DisplayType) : Bool :=
  match t with
  | .monochrome => false
  | .grayscale => true

/-- The `STATUS` word (R43), from bit 31 down. -/
def statusWord (s : State) : Word :=
  0#15 ++ BitVec.ofBool (!s.decodeLatch.isEmpty) ++ s.batchDepth ++ BitVec.ofBool (typeBit s.cfg.type) ++
    s.rotation ++ BitVec.ofBool s.inverted ++ BitVec.ofBool s.throttleUpdates ++
    BitVec.ofBool (decide (scopeOpen s)) ++ BitVec.ofBool s.forceUpdate ++ BitVec.ofBool s.dirty

end Sys2Proof.Machine
end

