-- ==== Sys2Proof/Decode.lean ====
section
/-! DEFINITION. Command decoding (30_encoding.md R90 to R104), total on every list of words, and after it the encoder,
the pseudo-instructions and the assembler text. A command word is a 32-bit value without a byte order of its own (R68),
so the decoder reads lists of words. -/

namespace Sys2Proof

/-! ## Fields of the header and of operand words -/

/-- `OPC` = header bits [31:24] (R91). -/
def headerOpc (h : Word) : Byte := h.extractLsb' 24 8

/-- `P` = header bits [23:16], unsigned (R91, R97). -/
def headerP (h : Word) : Nat := (h.extractLsb' 16 8).toNat

/-- `Q` = header bits [15:8], unsigned (R91, R97). -/
def headerQ (h : Word) : Nat := (h.extractLsb' 8 8).toNat

/-- `V` = header bit [0] (R91). -/
def headerV (h : Word) : Bool := h.getLsbD 0

/-- `PL` = `OPC[7]`: payload words follow the operand words (R92). -/
def opcodePL (opc : Byte) : Bool := opc.getLsbD 7

/-- `NW` = `OPC[6:4]`: the number of operand words (R92). -/
def opcodeNW (opc : Byte) : Nat := (opc.extractLsb' 4 3).toNat

/-- `sext_16(LO)`, the x-like operand of an operand word (R93, R97). -/
def operandLo (w : Word) : Int := (w.extractLsb' 0 16).toInt

/-- `sext_16(HI)`, the y-like operand of an operand word (R93, R97). -/
def operandHi (w : Word) : Int := (w.extractLsb' 16 16).toInt

/-! ## Command length and payload -/

/-- Bytes in one row of a bitmap of `w` columns: `ceil(w/8)` (R67, R96). -/
def bitmapStride (w : Int) : Nat := (w.toNat + 7) / 8

/-- Bytes in a bitmap: `stride*h`, none when an extent is not positive (R96). -/
def bitmapBytes (w h : Int) : Nat := if w ≤ 0 ∨ h ≤ 0 then 0 else bitmapStride w * h.toNat

/-- `npay`, the number of payload words that the operand word W2 announces (R96). -/
def payloadWords (w2 : Word) : Nat := (bitmapBytes (operandLo w2) (operandHi w2) + 3) / 4

/-- The length in words of the command that starts `ws`, once the words present determine it (R95): for every opcode,
reserved ones too. -/
def commandLength : List Word → Option Nat
  | [] => none
  | h :: ops =>
    let opc := headerOpc h
    if opcodePL opc = true ∧ 2 ≤ opcodeNW opc then
      match ops with
      | _ :: w2 :: _ => some (1 + opcodeNW opc + payloadWords w2)
      | _ => none
    else some (1 + opcodeNW opc)

/-- Whether `ws` holds all the words of its first command (R104). -/
def commandComplete (ws : List Word) : Bool :=
  match commandLength ws with
  | none => false
  | some n => decide (n ≤ ws.length)

/-- The four bitmap bytes of a payload word, byte `4q` in bits [7:0] (R68, R96). -/
def unpackWord (w : Word) : List Byte :=
  [w.extractLsb' 0 8, w.extractLsb' 8 8, w.extractLsb' 16 8, w.extractLsb' 24 8]

/-- The first `n` bytes carried by payload words; the rest of the last word is padding (R96). -/
def unpackPayload (n : Nat) (ws : List Word) : List Byte := (ws.flatMap unpackWord).take n

/-! ## The opcode map -/

/-- What a header and its operand and payload words stand for (R98), or `none` for a reserved opcode (R99). Fields the
map does not list as used are not read (R100). DESIGN CHOICE (log entry 12): so `DRAW_XBM` does not read `V`, as R98 and
R100 say and D20 does not. -/
def decodeCommand (h : Word) (ops : List Word) : Option Instr :=
  let w1 := ops.getD 0 0
  let w2 := ops.getD 1 0
  let w3 := ops.getD 2 0
  match (headerOpc h).toNat with
  | 0x01 => some .beginUpdate
  | 0x02 => some .endUpdate
  | 0x03 => some (.setForceUpdate (headerV h))
  | 0x04 => some .needsUpdate
  | 0x05 => some (.setThrottle (headerV h))
  | 0x06 => some (.invert (headerV h))
  | 0x07 => some .clear
  | 0x08 => some .fill
  | 0x09 => some (.setRotation (headerP h))
  | 0x0A => some (.setTextSize (headerP h))
  | 0x0B => some (.write (headerP h))
  | 0x10 => some (.setPixel (operandLo w1) (operandHi w1) (headerV h))
  | 0x11 => some (.getPixel (operandLo w1) (operandHi w1))
  | 0x12 => some (.setCursor (operandLo w1) (operandHi w1))
  | 0x13 => some (.drawChar (operandLo w1) (operandHi w1) (headerP h) (headerV h) (headerQ h))
  | 0x20 => some (.drawBox (operandLo w1) (operandHi w1) (operandLo w2) (operandHi w2) (headerV h))
  | 0x21 => some (.drawRect (operandLo w1) (operandHi w1) (operandLo w2) (operandHi w2))
  | 0x22 => some (.drawLine (operandLo w1) (operandHi w1) (operandLo w2) (operandHi w2))
  | 0x23 => some (.drawHLine (operandLo w1) (operandHi w1) (operandLo w2))
  | 0x24 => some (.drawVLine (operandLo w1) (operandHi w1) (operandLo w2))
  | 0x25 => some (.drawCircle (operandLo w1) (operandHi w1) (operandLo w2))
  | 0x26 => some (.fillCircle (operandLo w1) (operandHi w1) (operandLo w2))
  | 0x30 => some (.drawTriangle (operandLo w1) (operandHi w1) (operandLo w2) (operandHi w2)
      (operandLo w3) (operandHi w3))
  | 0x31 => some (.fillTriangle (operandLo w1) (operandHi w1) (operandLo w2) (operandHi w2)
      (operandLo w3) (operandHi w3))
  | 0xA0 => some (.drawXbm (operandLo w1) (operandHi w1) (operandLo w2) (operandHi w2)
      (unpackPayload (bitmapBytes (operandLo w2) (operandHi w2)) (ops.drop 2)))
  | _ => none

/-- What the decoder finds at the head of a list of words. -/
inductive Decoded where
  /-- a command, and the words after it -/
  | instr (i : Instr) (rest : List Word)
  /-- a reserved opcode with all its words (R99), and the words after it -/
  | reserved (opc : Byte) (rest : List Word)
  /-- the first command's words have not all arrived (R104) -/
  | incomplete
  deriving DecidableEq, Repr

/-- The decoder (R104): a function of the word list only, total. -/
def decode (ws : List Word) : Decoded :=
  match ws, commandLength ws with
  | h :: ops, some n =>
    if n ≤ (h :: ops).length then
      match decodeCommand h (ops.take (n - 1)) with
      | some i => .instr i (ops.drop (n - 1))
      | none => .reserved (headerOpc h) (ops.drop (n - 1))
    else .incomplete
  | _, _ => .incomplete

/-! ## The encoder -/

/-- A header word from its fields, reserved bits written 0 (R91). -/
def makeHeader (opc : Byte) (p q : Nat) (v : Bool) : Word :=
  opc ++ BitVec.ofNat 8 p ++ BitVec.ofNat 8 q ++ 0#7 ++ BitVec.ofBool v

/-- An operand word from its `HI` and `LO` values (R93). -/
def makePair (hi lo : Int) : Word := BitVec.ofInt 16 hi ++ BitVec.ofInt 16 lo

/-- A payload word from its four bytes, the first in bits [7:0] (R96). -/
def packWord (b0 b1 b2 b3 : Byte) : Word := b3 ++ b2 ++ b1 ++ b0

/-- The payload words of a bitmap, padding bytes written 0 (R96). -/
def packPayload : List Byte → List Word
  | [] => []
  | [a] => [packWord a 0 0 0]
  | [a, b] => [packWord a b 0 0]
  | [a, b, c] => [packWord a b c 0]
  | a :: b :: c :: d :: rest => packWord a b c d :: packPayload rest

/-- The words of a command as the assembler writes them: unused fields 0 (R93, R98, R100). -/
def encode : Instr → List Word
  | .beginUpdate => [makeHeader 0x01 0 0 false]
  | .endUpdate => [makeHeader 0x02 0 0 false]
  | .setForceUpdate flag => [makeHeader 0x03 0 0 flag]
  | .needsUpdate => [makeHeader 0x04 0 0 false]
  | .setThrottle flag => [makeHeader 0x05 0 0 flag]
  | .invert flag => [makeHeader 0x06 0 0 flag]
  | .clear => [makeHeader 0x07 0 0 false]
  | .fill => [makeHeader 0x08 0 0 false]
  | .setRotation r => [makeHeader 0x09 r 0 false]
  | .setTextSize s => [makeHeader 0x0A s 0 false]
  | .write c => [makeHeader 0x0B c 0 false]
  | .setPixel x y on => [makeHeader 0x10 0 0 on, makePair y x]
  | .getPixel x y => [makeHeader 0x11 0 0 false, makePair y x]
  | .setCursor x y => [makeHeader 0x12 0 0 false, makePair y x]
  | .drawChar x y c color size => [makeHeader 0x13 c size color, makePair y x]
  | .drawBox x y w h on => [makeHeader 0x20 0 0 on, makePair y x, makePair h w]
  | .drawRect x y w h => [makeHeader 0x21 0 0 false, makePair y x, makePair h w]
  | .drawLine x0 y0 x1 y1 => [makeHeader 0x22 0 0 false, makePair y0 x0, makePair y1 x1]
  | .drawHLine x y w => [makeHeader 0x23 0 0 false, makePair y x, makePair 0 w]
  | .drawVLine x y h => [makeHeader 0x24 0 0 false, makePair y x, makePair 0 h]
  | .drawCircle x0 y0 r => [makeHeader 0x25 0 0 false, makePair y0 x0, makePair 0 r]
  | .fillCircle x0 y0 r => [makeHeader 0x26 0 0 false, makePair y0 x0, makePair 0 r]
  | .drawTriangle x0 y0 x1 y1 x2 y2 =>
    [makeHeader 0x30 0 0 false, makePair y0 x0, makePair y1 x1, makePair y2 x2]
  | .fillTriangle x0 y0 x1 y1 x2 y2 =>
    [makeHeader 0x31 0 0 false, makePair y0 x0, makePair y1 x1, makePair y2 x2]
  | .drawXbm x y w h bitmap =>
    makeHeader 0xA0 0 0 false :: makePair y x :: makePair h w :: packPayload bitmap

/-! ## Pseudo-instructions and assembler text -/

/-- The commands that `PRINT "str"` stands for (R103, R199): the string's bytes in one batch scope. -/
def printCommands (str : List Byte) : List Instr :=
  .beginUpdate :: str.map (fun c => .write c.toNat) ++ [.endUpdate]

/-- The commands that `PRINTF` stands for once the host has formatted its string: truncated to the host's own
`PRINTF_MAX`, then printed (R200). -/
def printfCommands (printfMax : Nat) (formatted : List Byte) : List Instr :=
  printCommands (formatted.take printfMax)

/-- The mnemonic of a command (R98). -/
def mnemonicOf : Instr → String
  | .beginUpdate => "BEGIN_UPDATE"
  | .endUpdate => "END_UPDATE"
  | .setForceUpdate _ => "SET_FORCE_UPDATE"
  | .needsUpdate => "NEEDS_UPDATE"
  | .setThrottle _ => "SET_THROTTLE"
  | .invert _ => "INVERT"
  | .clear => "CLEAR"
  | .fill => "FILL"
  | .setRotation _ => "SET_ROTATION"
  | .setTextSize _ => "SET_TEXT_SIZE"
  | .write _ => "WRITE"
  | .setPixel _ _ _ => "SET_PIXEL"
  | .getPixel _ _ => "GET_PIXEL"
  | .setCursor _ _ => "SET_CURSOR"
  | .drawChar _ _ _ _ _ => "DRAW_CHAR"
  | .drawBox _ _ _ _ _ => "DRAW_BOX"
  | .drawRect _ _ _ _ => "DRAW_RECT"
  | .drawLine _ _ _ _ => "DRAW_LINE"
  | .drawHLine _ _ _ => "DRAW_HLINE"
  | .drawVLine _ _ _ => "DRAW_VLINE"
  | .drawCircle _ _ _ => "DRAW_CIRCLE"
  | .fillCircle _ _ _ => "FILL_CIRCLE"
  | .drawTriangle _ _ _ _ _ _ => "DRAW_TRIANGLE"
  | .fillTriangle _ _ _ _ _ _ => "FILL_TRIANGLE"
  | .drawXbm _ _ _ _ _ => "DRAW_XBM"

/-- The integer operands of a command in assembler order (R102), the bitmap of `DRAW_XBM` aside. -/
def asmOperands : Instr → List Int
  | .beginUpdate | .endUpdate | .needsUpdate | .clear | .fill => []
  | .setForceUpdate v | .setThrottle v | .invert v => [v.toInt]
  | .setRotation n | .setTextSize n | .write n => [n]
  | .setPixel x y on => [x, y, on.toInt]
  | .getPixel x y | .setCursor x y => [x, y]
  | .drawChar x y c color size => [x, y, c, color.toInt, size]
  | .drawBox x y w h on => [x, y, w, h, on.toInt]
  | .drawRect x y w h | .drawLine x y w h => [x, y, w, h]
  | .drawHLine x y w | .drawVLine x y w | .drawCircle x y w | .fillCircle x y w => [x, y, w]
  | .drawTriangle x0 y0 x1 y1 x2 y2 | .fillTriangle x0 y0 x1 y1 x2 y2 => [x0, y0, x1, y1, x2, y2]
  | .drawXbm x y w h _ => [x, y, w, h]

/-- The textual form of a command (R102): decimal operands, the bytes of a bitmap in braces (characters 123, 125). -/
def asmText (i : Instr) : String :=
  let ops := (asmOperands i).map (fun n => toString n)
  let ops := match i with
    | .drawXbm _ _ _ _ bitmap => ops ++ [String.singleton (Char.ofNat 123) ++ " " ++
        ", ".intercalate (bitmap.map (fun b => toString b.toNat)) ++ " " ++ String.singleton (Char.ofNat 125)]
    | _ => ops
  if ops.isEmpty then mnemonicOf i else mnemonicOf i ++ " " ++ ", ".intercalate ops

/-! ## Words from the host's numbering -/

/-- The command's words when its bits are `w`, bit 0 the least significant bit of the header, `nbits` of them given
and every later bit 0. -/
def tableWords (nbits w : Nat) : List Word :=
  let word (k : Nat) : Word := BitVec.ofNat 32 ((w % 2 ^ nbits) >>> (32 * k))
  match commandLength [word 0, word 1, word 2] with
  | some n => (List.range n).map word
  | none => [word 0]

/-- The command the decoder reads from an instruction whose bits are `w`. -/
def decodeTableWord (nbits w : Nat) : Option Instr :=
  match decode (tableWords nbits w) with
  | .instr i _ => some i
  | .reserved _ _ => none
  | .incomplete => none

end Sys2Proof
end

