-- ==== Sys2Proof/Machine/Operands.lean ====
section
/-! DEFINITION. What operands stand for: pixel coordinates and bit indices (R60 to R62), loop ranges, glyph and bitmap
addressing (R66, R67), the points and spans of the raster algorithms (R162 to R173), 16-bit wrapping (R13). -/

namespace Sys2Proof.Machine

/-! ## Pixels -/

/-- `InRange(x, y)` (R60). -/
abbrev inRange (p : Params) (x y : Int) : Prop := 0 ≤ x ∧ x < p.width ∧ 0 ≤ y ∧ y < p.height

/-- `BitIndex(x, y) = y*WIDTH + x`, used only in range (R61). -/
def bitIndex (p : Params) (x y : Int) : Nat := y.toNat * p.width + x.toNat

/-! ## Integers -/

/-- `wrap16` into a 16-bit register (R13, R31). -/
def wrap16 (v : Int) : Half := BitVec.ofInt 16 v

/-- The values of a loop "from lo to hi", both included; none when `hi < lo` (R162). -/
def intRange (lo hi : Int) : List Int := (List.range (hi - lo + 1).toNat).map (fun k : Nat => lo + k)

/-- A pixel's coordinates. -/
abbrev Point := Int × Int

/-! ## Boxes, rectangles, straight lines -/

/-- The pixels `Box` writes, row by row, clamped to the display (R162). -/
def boxPoints (p : Params) (x y w h : Int) : List Point :=
  (intRange (max 0 y) (min (y + h) p.height - 1)).flatMap fun j =>
    (intRange (max 0 x) (min (x + w) p.width - 1)).map fun i => (i, j)

/-- The pixels `Rect` offers to `SetPixel`: its four border lines, nothing for a non-positive extent (R163). -/
def rectPoints (x y w h : Int) : List Point :=
  if 0 < w ∧ 0 < h then
    (intRange x (x + w - 1)).flatMap (fun i => [(i, y), (i, y + h - 1)]) ++
      (intRange y (y + h - 1)).flatMap (fun j => [(x, j), (x + w - 1, j)])
  else []

/-- The pixels `HLine` offers to `SetPixel` (R166). -/
def hlinePoints (x y w : Int) : List Point := (intRange 0 (w - 1)).map fun i => (x + i, y)

/-- The pixels `VLine` offers to `SetPixel` (R167). -/
def vlinePoints (x y h : Int) : List Point := (intRange 0 (h - 1)).map fun j => (x, y + j)

/-- The loop of `Line` (R164) for `n` more values of the major coordinate `a`, minor coordinate `b`. -/
def lineLoop (dx dy step : Int) : Nat → Int → Int → Int → List Point
  | 0, _, _, _ => []
  | n + 1, a, b, err =>
    (a, b) ::
      (if err - dy < 0 then lineLoop dx dy step n (a + 1) (b + step) (err - dy + dx)
       else lineLoop dx dy step n (a + 1) b (err - dy))

/-- The stepping of `Line` from endpoints ordered along the major axis, `a0 ≤ a1` (R164). -/
def lineSteps (a0 b0 a1 b1 : Int) : List Point :=
  lineLoop (a1 - a0) (b1 - b0).natAbs (if b0 < b1 then 1 else -1) ((a1 - a0).toNat + 1) a0 b0 ((a1 - a0) / 2)

/-- Whether `Line` exchanges the roles of x and y (R164). -/
abbrev steep (x0 y0 x1 y1 : Int) : Prop := (x1 - x0).natAbs < (y1 - y0).natAbs

/-- `Line`'s ordering of the endpoints along the major axis, before stepping (R164). -/
def lineOrdered (a0 b0 a1 b1 : Int) : List Point :=
  if a1 < a0 then lineSteps a1 b1 a0 b0 else lineSteps a0 b0 a1 b1

/-- The pixels `Line` offers to `SetPixel`, in its order (R164). -/
def linePoints (x0 y0 x1 y1 : Int) : List Point :=
  if steep x0 y0 x1 y1 then (lineOrdered y0 x0 y1 x1).map fun q => (q.2, q.1)
  else lineOrdered x0 y0 x1 y1

/-! ## Circles -/

/-- The eight mirror images of the octant point (x, y) about (x0, y0), in the order of R168. -/
def octantPoints (x0 y0 x y : Int) : List Point :=
  [(x0 + x, y0 + y), (x0 - x, y0 + y), (x0 + x, y0 - y), (x0 - x, y0 - y),
   (x0 + y, y0 + x), (x0 - y, y0 + x), (x0 + y, y0 - x), (x0 - y, y0 - x)]

/-- The loop of `Circle` (R168), with fuel: `x` rises by one on each turn and `y` never rises, so `y` turns are
always enough. -/
def circleLoop (x0 y0 : Int) : Nat → Int → Int → Int → Int → Int → List Point
  | 0, _, _, _, _, _ => []
  | n + 1, f, ddx, ddy, x, y =>
    if x < y then
      if 0 ≤ f then
        octantPoints x0 y0 (x + 1) (y - 1) ++
          circleLoop x0 y0 n (f + (ddy + 2) + (ddx + 2)) (ddx + 2) (ddy + 2) (x + 1) (y - 1)
      else
        octantPoints x0 y0 (x + 1) y ++
          circleLoop x0 y0 n (f + (ddx + 2)) (ddx + 2) ddy (x + 1) y
    else []

/-- The pixels `Circle` offers to `SetPixel`; none for a negative radius (R168). -/
def circlePoints (x0 y0 r : Int) : List Point :=
  if 0 ≤ r then
    [(x0, y0 + r), (x0, y0 - r), (x0 + r, y0), (x0 - r, y0)] ++
      circleLoop x0 y0 r.toNat (1 - r) 1 (-2 * r) 0 r
  else []

/-- The pixels `FillCircle` offers to `SetPixel` (R170). -/
def discPoints (x0 y0 r : Int) : List Point :=
  (intRange (-r) r).flatMap fun dy =>
    ((intRange (-r) r).filter fun dx => dx * dx + dy * dy ≤ r * r).map fun dx => (x0 + dx, y0 + dy)

/-! ## Filled triangles -/

/-- One compare-exchange of the vertex sort: swapped only when strictly greater in y (R172). -/
def orderByY (a b : Point) : Point × Point := if b.2 < a.2 then (b, a) else (a, b)

/-- The three-exchange vertex sort of R172(a). -/
def sortVertices (v0 v1 v2 : Point) : Point × Point × Point :=
  let (v0, v1) := orderByY v0 v1
  let (v1, v2) := orderByY v1 v2
  let (v0, v1) := orderByY v0 v1
  (v0, v1, v2)

/-- `EdgeX` (R172(b)): `xa + (xb - xa)*(y - ya)/(yb - ya)` as an exact rational, truncated toward zero. -/
def edgeX (a b : Point) (y : Int) : Int :=
  (a.1 * (b.2 - a.2) + (b.1 - a.1) * (y - a.2)).tdiv (b.2 - a.2)

/-- The operands x, y, w of one `HLine`. -/
abbrev Run := Int × Int × Int

/-- The row of `FillTriangle` between two edges, both ends included, exchanged if inverted (R173), as D24 words it:
`HLine(min, y, max - min + 1)`. -/
def rowRun (xa xb y : Int) : Run := (min xa xb, y, max xa xb - min xa xb + 1)

/-- One pass of `FillTriangle`: the rows of the short edge `a`–`b` against the long edge `u`–`v`; skipped when the
short edge has no height (R173). -/
def passRuns (a b u v : Point) : List Run :=
  if a.2 < b.2 then (intRange a.2 b.2).map fun y => rowRun (edgeX a b y) (edgeX u v y) y else []

/-- The rows `FillTriangle` draws, in its order (R173). -/
def triangleRuns (v0 v1 v2 : Point) : List Run :=
  let (s0, s1, s2) := sortVertices v0 v1 v2
  passRuns s0 s1 s0 s2 ++ passRuns s1 s2 s0 s2

/-! ## Glyphs and bitmaps -/

/-- Whether a character code has a glyph (R66, R190). -/
abbrev printable (c : Nat) : Prop := 0x20 ≤ c ∧ c ≤ 0x7E

/-- Glyph pixel: bit `row` of column byte `col` of the glyph of code `c` (R66, R190). -/
def glyphBit (p : Params) (c col row : Nat) : Bool :=
  (p.glyphRom.getD (5 * (c - 0x20) + col) 0).getLsbD row

/-- The set pixels of a glyph, column by column from the left, each from the top (R191). -/
def glyphPixels (p : Params) (c : Nat) : List (Nat × Nat) :=
  ((List.range 5).flatMap fun col : Nat => (List.range 8).map fun row : Nat => (col, row)).filter
    fun q => glyphBit p c q.1 q.2

/-- Bitmap pixel (i, j): bit `i mod 8` of byte `j*stride + i div 8` (R67). -/
def bitmapBit (bitmap : List Byte) (stride i j : Nat) : Bool :=
  (bitmap.getD (j * stride + i / 8) 0).getLsbD (i % 8)

/-- The pixels `Xbm` offers to `SetPixel`: the set bits of the bitmap, offset by (x, y) (R197). -/
def xbmPoints (x y w h : Int) (bitmap : List Byte) : List Point :=
  if 0 < w ∧ 0 < h then
    (List.range h.toNat).flatMap fun j : Nat =>
      ((List.range w.toNat).filter fun i : Nat => bitmapBit bitmap (bitmapStride w) i j).map
        fun i : Nat => (x + i, y + j)
  else []

end Sys2Proof.Machine
end

