-- ==== Sys2Proof/Machine/Ops.lean ====
section
/-! DEFINITION. The shared operations: memory, the pixel primitives (R120, R122), the batch scope (R124, R125), the
flush (R128), the swap (R129), drawing a list of pixels. The engine has no exception to take and none to return from
(R210, R219, R220). -/

namespace Sys2Proof.Machine

/-! ## Memory -/

/-- The byte at an address; an address not listed reads 0x00. -/
def Memory.read : Memory → Nat → Byte
  | [], _ => 0
  | (b, v) :: m, a => if a = b then v else Memory.read m a

/-- Store a byte, keeping the canonical form. -/
def Memory.write : Memory → Nat → Byte → Memory
  | [], a, v => if v = 0 then [] else [(a, v)]
  | (b, w) :: m, a, v =>
    if a < b then (if v = 0 then (b, w) :: m else (a, v) :: (b, w) :: m)
    else if a = b then (if v = 0 then m else (a, v) :: m)
    else (b, w) :: Memory.write m a v

/-- The memory whose bytes 0 to `n - 1` are given by `f`. -/
def Memory.tabulate (n : Nat) (f : Nat → Byte) : Memory :=
  (List.range n).filterMap fun a => if f a = 0 then none else some (a, f a)

/-- Bit `n mod 8` of byte `n div 8` (R62). -/
def Memory.bit (m : Memory) (n : Nat) : Bool := (m.read (n / 8)).getLsbD (n % 8)

/-- A byte with one bit replaced: only the addressed bit changes (R120). -/
def setByteBit (v : Byte) (k : Nat) (on : Bool) : Byte :=
  if on then v ||| BitVec.twoPow 8 k else v &&& ~~~BitVec.twoPow 8 k

/-- Write one bit of a memory (R62, R120). -/
def Memory.setBit (m : Memory) (n : Nat) (on : Bool) : Memory :=
  m.write (n / 8) (setByteBit (m.read (n / 8)) (n % 8) on)

/-! ## Swap and flush -/

/-- `Swap()` (R129). -/
def swapBuffers (s : State) : State := { s with buffer := s.backBuffer, backBuffer := s.buffer }

/-- `FlushAttempt()`: whether it fired, and the state after it (R128). `dirty` and `forceUpdate` are its callers' to
clear. -/
def flushAttempt (s : State) : Bool × State :=
  if needsUpdate s = false then (false, s)
  else if throttled s then (false, s)
  else (true, { s with lastUpdateTime := s.now, events := s.events ++ [⟨s.now, s.buffer⟩] })

/-! ## Pixels -/

/-- `GetPixel(x, y)`: from the front buffer, 0 out of range (R122). -/
def getPixel (x y : Int) (s : State) : Bool :=
  if inRange s.cfg x y then s.buffer.bit (bitIndex s.cfg x y) else false

/-- The write of one pixel into the back buffer when a scope is open, else into the front buffer (R120). -/
def writePixel (x y : Int) (on : Bool) (s : State) : State :=
  if scopeOpen s then { s with backBuffer := s.backBuffer.setBit (bitIndex s.cfg x y) on, dirty := true }
  else { s with buffer := s.buffer.setBit (bitIndex s.cfg x y) on, dirty := true }

/-- The flush attempt that follows a direct write: both flags are cleared only if it fires (R120). -/
def flushDirect (s : State) : State :=
  if (flushAttempt s).1 then { (flushAttempt s).2 with dirty := false, forceUpdate := false }
  else (flushAttempt s).2

/-- `SetPixel(x, y, on)` (R120). -/
def setPixel (x y : Int) (on : Bool) (s : State) : State :=
  if inRange s.cfg x y then
    if scopeOpen s then writePixel x y on s else flushDirect (writePixel x y on s)
  else s

/-- `SetPixel` of one value at each of a list of points, in order. -/
def plot (points : List Point) (on : Bool) (s : State) : State :=
  points.foldl (fun s q => setPixel q.1 q.2 on s) s

/-! ## The batch scope -/

/-- `MAX_DEPTH` (R8). -/
def maxDepth : Byte := 255

/-- `BeginScope()` (R124). -/
def beginScope (s : State) : State :=
  if s.batchDepth = 0 then { s with backBuffer := s.buffer, batchDepth := 1 }
  else if s.batchDepth < maxDepth then { s with batchDepth := s.batchDepth + 1 }
  else s

/-- The commit at the close of the outermost scope (R125, R127): swap, then flush attempt, then both flags cleared. -/
def commitScope (s : State) : State :=
  let t := if needsUpdate s then (flushAttempt (swapBuffers s)).2 else s
  { t with dirty := false, forceUpdate := false }

/-- `EndScope()` (R125). -/
def endScope (s : State) : State :=
  if s.batchDepth = 0 then s
  else if s.batchDepth = 1 then commitScope { s with batchDepth := 0 }
  else { s with batchDepth := s.batchDepth - 1 }

/-- A procedure's body between its `BeginScope` and its `EndScope` (R126, R161). -/
def inScope (body : State → State) (s : State) : State := endScope (body (beginScope s))

/-- A drawing procedure that offers a list of points to `SetPixel` in its scope (R161). -/
def drawPoints (points : List Point) (on : Bool) (s : State) : State := inScope (plot points on) s

/-- Overwrite every byte of the back buffer and set `dirty`, in a scope (R136, R137, R138). -/
def overwriteBack (f : State → Nat → Byte) (s : State) : State :=
  inScope (fun s => { s with backBuffer := Memory.tabulate s.cfg.nbytes (f s), dirty := true }) s

end Sys2Proof.Machine
end

