-- ==== Sys2Proof/Machine/Shapes.lean ====
section
/-! DEFINITION. The Raster Engine's shape commands (41_raster_shapes.md): each offers its points to `SetPixel` inside a
scope of its own. -/

namespace Sys2Proof.Machine

/-- Procedure `Box` (R162). -/
def drawBox (x y w h : Int) (on : Bool) (s : State) : State := drawPoints (boxPoints s.cfg x y w h) on s

/-- Procedure `Line` (R164). -/
def drawLine (x0 y0 x1 y1 : Int) (s : State) : State := drawPoints (linePoints x0 y0 x1 y1) true s

/-- Procedure `HLine` (R166). -/
def drawHLine (x y w : Int) (s : State) : State := drawPoints (hlinePoints x y w) true s

/-- `DRAW_BOX x, y, w, h, on` (R162). -/
def execDrawBox (x y w h : Int) (on : Bool) (s : State) : Result := .next (drawBox x y w h on s)

/-- `DRAW_RECT x, y, w, h` (R163). -/
def execDrawRect (x y w h : Int) (s : State) : Result := .next (drawPoints (rectPoints x y w h) true s)

/-- `DRAW_LINE x0, y0, x1, y1` (R165). -/
def execDrawLine (x0 y0 x1 y1 : Int) (s : State) : Result := .next (drawLine x0 y0 x1 y1 s)

/-- `DRAW_HLINE x, y, w` (R166). -/
def execDrawHLine (x y w : Int) (s : State) : Result := .next (drawHLine x y w s)

/-- `DRAW_VLINE x, y, h` (R167). -/
def execDrawVLine (x y h : Int) (s : State) : Result := .next (drawPoints (vlinePoints x y h) true s)

/-- `DRAW_CIRCLE x0, y0, r` (R169). -/
def execDrawCircle (x0 y0 r : Int) (s : State) : Result := .next (drawPoints (circlePoints x0 y0 r) true s)

/-- `FILL_CIRCLE x0, y0, r` (R170). -/
def execFillCircle (x0 y0 r : Int) (s : State) : Result := .next (drawPoints (discPoints x0 y0 r) true s)

/-- `DRAW_TRIANGLE` (R171): three `Line` procedures, each with its own scope, inside the triangle's scope. -/
def execDrawTriangle (x0 y0 x1 y1 x2 y2 : Int) (s : State) : Result :=
  .next (inScope (fun s => drawLine x2 y2 x0 y0 (drawLine x1 y1 x2 y2 (drawLine x0 y0 x1 y1 s))) s)

/-- `FILL_TRIANGLE` (R173). DESIGN CHOICE (log entry 13): each row is an `HLine` with its own scope inside the triangle's,
as D24 rules; R173's pseudocode plots the same pixels with `SetPixel` in the one scope. The two differ only in the depth
left when the command begins at depth 254 or 255. -/
def execFillTriangle (x0 y0 x1 y1 x2 y2 : Int) (s : State) : Result :=
  .next (inScope (fun s => (triangleRuns (x0, y0) (x1, y1) (x2, y2)).foldl
    (fun s q => drawHLine q.1 q.2.1 q.2.2 s) s) s)

end Sys2Proof.Machine
end

