-- ==== Sys2Proof/Machine/Store.lean ====
section
/-! DEFINITION. The Framebuffer Store commands (40_store_control.md). -/

namespace Sys2Proof.Machine

/-- `BEGIN_UPDATE` (R130). -/
def execBeginUpdate (s : State) : Result := .next (beginScope s)

/-- `END_UPDATE` (R131). -/
def execEndUpdate (s : State) : Result := .next (endScope s)

/-- `SET_FORCE_UPDATE flag` (R133). -/
def execSetForceUpdate (flag : Bool) (s : State) : Result := .next { s with forceUpdate := flag }

/-- `NEEDS_UPDATE` (R134). -/
def execNeedsUpdate (s : State) : Result := .next { s with resp := needsUpdate s }

/-- `SET_THROTTLE flag` (R135). -/
def execSetThrottle (flag : Bool) (s : State) : Result := .next { s with throttleUpdates := flag }

/-- `INVERT flag` (R136): each back-buffer byte becomes the complement of the front-buffer byte. -/
def execInvert (flag : Bool) (s : State) : Result :=
  if flag = s.inverted then .next s
  else .next (overwriteBack (fun s i => ~~~s.buffer.read i) { s with inverted := flag })

/-- `CLEAR` (R137). -/
def execClear (s : State) : Result := .next (overwriteBack (fun _ _ => 0x00) s)

/-- `FILL` (R138). -/
def execFill (s : State) : Result := .next (overwriteBack (fun _ _ => 0xFF) s)

/-- `SET_ROTATION r` (R139): the reported geometry is exchanged for odd rotations (R35). -/
def execSetRotation (r : Nat) (s : State) : Result :=
  let width := BitVec.ofNat 16 s.cfg.width
  let height := BitVec.ofNat 16 s.cfg.height
  let rotation := BitVec.ofNat 2 r
  .next { s with
    rotation := rotation
    displayWidth := if rotation.getLsbD 0 then height else width
    displayHeight := if rotation.getLsbD 0 then width else height
    forceUpdate := true }

/-- `SET_PIXEL x, y, on` (R121). -/
def execSetPixel (x y : Int) (on : Bool) (s : State) : Result := .next (setPixel x y on s)

/-- `GET_PIXEL x, y` (R123). -/
def execGetPixel (x y : Int) (s : State) : Result := .next { s with resp := getPixel x y s }

end Sys2Proof.Machine
end

