-- ==== Sys2Proof/Machine/Text.lean ====
section
/-! DEFINITION. The glyph, text-cursor and bitmap commands (42_text_bitmap.md). -/

namespace Sys2Proof.Machine

/-- The drawing of one set glyph pixel: a scaled box when `size > 1`, else one pixel (R191). -/
def drawGlyphPixel (x y : Int) (color : Bool) (size : Nat) (q : Nat × Nat) (s : State) : State :=
  if 1 < size then drawBox (x + q.1 * size) (y + q.2 * size) size size color s
  else setPixel (x + q.1) (y + q.2) color s

/-- Procedure `Char` (R191): nothing at all, not even a scope, for a code without a glyph. -/
def drawGlyph (x y : Int) (c : Nat) (color : Bool) (size : Nat) (s : State) : State :=
  if printable c then
    inScope (fun s => (glyphPixels s.cfg c).foldl (fun s q => drawGlyphPixel x y color size q s) s) s
  else s

/-- `DRAW_CHAR x, y, c, color, size` (R193). -/
def execDrawChar (x y : Int) (c : Nat) (color : Bool) (size : Nat) (s : State) : Result :=
  .next (drawGlyph x y c color size s)

/-- `SET_CURSOR x, y` (R194). -/
def execSetCursor (x y : Int) (s : State) : Result := .next { s with cursorX := wrap16 x, cursorY := wrap16 y }

/-- `SET_TEXT_SIZE s` (R195): 0 stores 1. -/
def execSetTextSize (size : Nat) (s : State) : Result :=
  .next { s with textSize := if BitVec.ofNat 8 size = 0 then 1 else BitVec.ofNat 8 size }

/-- `WRITE c` (R196): line feed, carriage return, or a character at the cursor, which then advances. -/
def execWrite (c : Nat) (s : State) : Result :=
  if c = 0x0A then
    .next { s with cursorY := wrap16 (s.cursorY.toInt + 8 * s.textSize.toNat), cursorX := 0 }
  else if c = 0x0D then .next s
  else
    .next { drawGlyph s.cursorX.toInt s.cursorY.toInt c true s.textSize.toNat s with
      cursorX := wrap16 (s.cursorX.toInt + 5 * s.textSize.toNat) }

/-- `DRAW_XBM x, y, w, h, bytes` (R198). DESIGN CHOICE (log entry 12): it plots the value 1 whatever `V` is, as R197 and
R198 say; D20 has it take `V`. -/
def execDrawXbm (x y w h : Int) (bitmap : List Byte) (s : State) : Result :=
  .next (drawPoints (xbmPoints x y w h bitmap) true s)

end Sys2Proof.Machine
end

