-- ==== Sys2Proof/Machine/Dispatch.lean ====
section
/-! DEFINITION. One arm per command. -/

namespace Sys2Proof.Machine

/-- The meaning of a command. -/
def exec (i : Instr) (s : State) : Host.Outcome State Fault Refusal :=
  match i with
  | .beginUpdate => Sys2Proof.Machine.execBeginUpdate s
  | .endUpdate => Sys2Proof.Machine.execEndUpdate s
  | .setForceUpdate flag => Sys2Proof.Machine.execSetForceUpdate flag s
  | .needsUpdate => Sys2Proof.Machine.execNeedsUpdate s
  | .setThrottle flag => Sys2Proof.Machine.execSetThrottle flag s
  | .invert flag => Sys2Proof.Machine.execInvert flag s
  | .clear => Sys2Proof.Machine.execClear s
  | .fill => Sys2Proof.Machine.execFill s
  | .setRotation r => Sys2Proof.Machine.execSetRotation r s
  | .setTextSize size => Sys2Proof.Machine.execSetTextSize size s
  | .write c => Sys2Proof.Machine.execWrite c s
  | .setPixel x y on => Sys2Proof.Machine.execSetPixel x y on s
  | .getPixel x y => Sys2Proof.Machine.execGetPixel x y s
  | .setCursor x y => Sys2Proof.Machine.execSetCursor x y s
  | .drawChar x y c color size => Sys2Proof.Machine.execDrawChar x y c color size s
  | .drawBox x y w h on => Sys2Proof.Machine.execDrawBox x y w h on s
  | .drawRect x y w h => Sys2Proof.Machine.execDrawRect x y w h s
  | .drawLine x0 y0 x1 y1 => Sys2Proof.Machine.execDrawLine x0 y0 x1 y1 s
  | .drawHLine x y w => Sys2Proof.Machine.execDrawHLine x y w s
  | .drawVLine x y h => Sys2Proof.Machine.execDrawVLine x y h s
  | .drawCircle x0 y0 r => Sys2Proof.Machine.execDrawCircle x0 y0 r s
  | .fillCircle x0 y0 r => Sys2Proof.Machine.execFillCircle x0 y0 r s
  | .drawTriangle x0 y0 x1 y1 x2 y2 => Sys2Proof.Machine.execDrawTriangle x0 y0 x1 y1 x2 y2 s
  | .fillTriangle x0 y0 x1 y1 x2 y2 => Sys2Proof.Machine.execFillTriangle x0 y0 x1 y1 x2 y2 s
  | .drawXbm x y w h bitmap => Sys2Proof.Machine.execDrawXbm x y w h bitmap s

end Sys2Proof.Machine
end

