-- ==== Sys2Proof/Machine/Port.lean ====
section
/-! DEFINITION. The slave interface: the command port with its decode latch (R90, R104), the read-only registers (R42,
R43), the framebuffer window (R73), the clock and reset inputs (R217, R240). -/

namespace Sys2Proof.Machine

/-! ## Reads -/

/-- The 32-bit window word at window byte offset `a`: four bytes of the front buffer, the lowest in bits [7:0]; a byte
at or past `NBYTES` reads 0 (R68, R73). -/
def windowWord (s : State) (a : Nat) : Word :=
  let byte (i : Nat) : Byte := if i < s.cfg.nbytes then s.buffer.read i else 0
  byte (a + 3) ++ byte (a + 2) ++ byte (a + 1) ++ byte a

/-- The value of the register or window word at a byte offset (R42, R71, R73): 0 for `CMD` and for every reserved
offset. -/
def busRead (s : State) (offset : Nat) : Word :=
  match offset with
  | 0x000 => 0
  | 0x004 => BitVec.zeroExtend 32 (BitVec.ofBool s.resp)
  | 0x008 => statusWord s
  | 0x00C => BitVec.ofNat 16 s.cfg.height ++ BitVec.ofNat 16 s.cfg.width
  | 0x010 => s.cfg.resH ++ s.cfg.resW
  | 0x014 => s.displayHeight ++ s.displayWidth
  | 0x018 => s.cursorY ++ s.cursorX
  | 0x01C => BitVec.zeroExtend 32 s.textSize
  | 0x020 => s.lastUpdateTime.extractLsb' 0 32
  | 0x024 => s.lastUpdateTime.extractLsb' 32 32
  | 0x028 => BitVec.ofNat 32 s.cfg.nbytes
  | 0x02C => s.cfg.minUpdateInterval
  | a => if 0x1000 ≤ a then windowWord s (a - 0x1000) else 0

/-! ## Writes and the command port -/

/-- The arrival of one word at the command port (R104): a command, or a reserved opcode's no-op (R99), executes when
its last word arrives and empties the latch; otherwise the word is latched. -/
def acceptWord (v : Word) (s : State) : Result :=
  match decode (s.decodeLatch ++ [v]) with
  | .instr i _ => exec i { s with decodeLatch := [] }
  | .reserved _ _ => .next { s with decodeLatch := [] }
  | .incomplete => .next { s with decodeLatch := s.decodeLatch ++ [v] }

/-- A write access: only `CMD` acts on it (R71, R72). -/
def busWrite (offset : Nat) (value : Word) (s : State) : Result :=
  if offset = 0x000 then acceptWord value s else .next s

/-- The only accesses the interface defines: 32 bits at a multiple of 4 (R70, R74). -/
abbrev accessDefined (offset size : Nat) : Prop := offset % 4 = 0 ∧ size = 4

/-- Reset of a running engine (R240): the state after reset of the same instance. What is outside the engine (the
clock, the inputs still to come, what it has already sent out) is not the engine's to reset. -/
def resetInput (s : State) : State :=
  { State.resetWith s.cfg with now := s.now, inputs := s.inputs, events := s.events, readData := s.readData }

/-- The effect of one input. -/
def serve (a : Input) (s : State) : Result :=
  match a with
  | .write offset size value =>
    if accessDefined offset size then busWrite offset value s
    else .refused (.accessOutsideInterface offset size)
  | .read offset size =>
    if accessDefined offset size then .next { s with readData := s.readData ++ [busRead s offset] }
    else .refused (.accessOutsideInterface offset size)
  | .clock now => .next { s with now := now }
  | .reset => .next (resetInput s)

/-- Serve the first pending input; with none pending the engine is idle and every piece of its state survives
(R222). -/
def serveNext (s : State) : Result :=
  match s.inputs with
  | [] => .next s
  | a :: rest => serve a { s with inputs := rest }

/-- Put the words of a command before the engine so that the next input delivers the last of them. -/
def presentCommand (ws : List Word) (s : State) : State :=
  { s with decodeLatch := ws.dropLast, inputs := .write 0x000 4 (ws.getLastD 0) :: s.inputs }

end Sys2Proof.Machine
end

