-- ==== Sys2Proof/Machine/Step.lean ====
section
/-! DEFINITION. One step: one access of the slave interface or one change of an input, in the total order of R78. -/

namespace Sys2Proof.Machine

/-- One step of the machine. -/
def step (s : State) : Host.Outcome State Fault Refusal := serveNext s

/-- The state in which the next step receives the last word of the command whose bits are `w`, the others latched. -/
def State.withFetchWord (s : State) (nbits w : Nat) : State := presentCommand (tableWords nbits w) s

end Sys2Proof.Machine
end

