-- ==== Sys2Proof/WellFormed.lean ====
section
/-! DEFINITION. Which terms of `Instr` a command word sequence can stand for: the operand ranges of R97 and the bitmap
size of R96. -/

namespace Sys2Proof

/-- A coordinate, extent or radius: signed 16 bits (R93, R97). -/
abbrev coordOk (v : Int) : Prop := -32768 ≤ v ∧ v ≤ 32767

/-- An 8-bit header parameter (R97). -/
abbrev byteOk (n : Nat) : Prop := n ≤ 255

/-- The well-formed commands. -/
def Instr.wf : Instr → Bool
  | .beginUpdate | .endUpdate | .needsUpdate | .clear | .fill => true
  | .setForceUpdate _ | .setThrottle _ | .invert _ => true
  | .setRotation n | .setTextSize n | .write n => decide (byteOk n)
  | .setPixel x y _ | .getPixel x y | .setCursor x y => decide (coordOk x ∧ coordOk y)
  | .drawChar x y c _ size => decide (coordOk x ∧ coordOk y ∧ byteOk c ∧ byteOk size)
  | .drawBox x y w h _ | .drawRect x y w h | .drawLine x y w h =>
    decide (coordOk x ∧ coordOk y ∧ coordOk w ∧ coordOk h)
  | .drawHLine x y n | .drawVLine x y n | .drawCircle x y n | .fillCircle x y n =>
    decide (coordOk x ∧ coordOk y ∧ coordOk n)
  | .drawTriangle x0 y0 x1 y1 x2 y2 | .fillTriangle x0 y0 x1 y1 x2 y2 =>
    decide (coordOk x0 ∧ coordOk y0 ∧ coordOk x1 ∧ coordOk y1 ∧ coordOk x2 ∧ coordOk y2)
  | .drawXbm x y w h bitmap =>
    decide (coordOk x ∧ coordOk y ∧ coordOk w ∧ coordOk h ∧ bitmap.length = bitmapBytes w h)

end Sys2Proof
end

