-- ==== Sys2Proof/Safety.lean ====
section
/-! DEFINITION. The terms in which claims about the machine are stated: the invariant of its states, and what a drawing
command does to a state. -/

namespace Sys2Proof.Machine

/-! ## The invariant -/

/-- Every listed address is below `n`. -/
abbrev Memory.within (m : Memory) (n : Nat) : Prop := ∀ c ∈ m, c.1 < n

/-- A buffer of an instance: canonical, and of `NBYTES` bytes (R23, R24, R25). -/
abbrev bufferOk (p : Params) (m : Memory) : Prop := m.wf ∧ m.within p.nbytes

/-- The reported geometry is the one R35 gives for the rotation. -/
abbrev geometryOk (s : State) : Prop :=
  s.displayWidth = BitVec.ofNat 16 (if s.rotation.getLsbD 0 then s.cfg.height else s.cfg.width) ∧
    s.displayHeight = BitVec.ofNat 16 (if s.rotation.getLsbD 0 then s.cfg.width else s.cfg.height)

/-- What holds of every state of a run. -/
structure State.Inv (s : State) : Prop where
  /-- the parameters are in their ranges (R8) -/
  cfg : s.cfg.wf
  /-- the front buffer is a buffer of this instance -/
  buffer : bufferOk s.cfg s.buffer
  /-- so is the back buffer -/
  backBuffer : bufferOk s.cfg s.backBuffer
  /-- the text size register never holds 0 (R33) -/
  textSize : s.textSize ≠ 0
  /-- the reported geometry always satisfies R35's equation -/
  geometry : geometryOk s
  /-- in a scope with `dirty` clear the back buffer still equals the front buffer (R127(c)) -/
  clean : scopeOpen s → s.dirty = false → s.backBuffer = s.buffer
  /-- the decode latch never holds a whole command (R104) -/
  latch : commandComplete s.decodeLatch = false
  /-- every event carried a buffer of this instance (R214) -/
  events : ∀ e ∈ s.events, bufferOk s.cfg e.frame

/-! ## The effect of drawing -/

/-- Some pixel on the display is in the set `P`. -/
def hits (p : Params) (P : Int → Int → Prop) : Prop := ∃ x y, inRange p x y ∧ P x y

/-- Bit `n` of a buffer is a pixel on the display that is in the set `P` (R61). -/
def covers (p : Params) (P : Int → Int → Prop) (n : Nat) : Prop :=
  ∃ x y, inRange p x y ∧ P x y ∧ bitIndex p x y = n

/-- `m'` is `m` with the pixels of `P` that are on the display written `on`; every other bit, padding included, is as
in `m`. -/
structure Painted (p : Params) (P : Int → Int → Prop) (on : Bool) (m m' : Memory) : Prop where
  written : ∀ n, covers p P n → m'.bit n = on
  kept : ∀ n, ¬ covers p P n → m'.bit n = m.bit n

/-- Everything that neither a pixel write nor a scope nor a flush may change is as before. -/
structure SameControl (s t : State) : Prop where
  cfg : t.cfg = s.cfg
  throttleUpdates : t.throttleUpdates = s.throttleUpdates
  cursorX : t.cursorX = s.cursorX
  cursorY : t.cursorY = s.cursorY
  textSize : t.textSize = s.textSize
  rotation : t.rotation = s.rotation
  displayWidth : t.displayWidth = s.displayWidth
  displayHeight : t.displayHeight = s.displayHeight
  inverted : t.inverted = s.inverted
  decodeLatch : t.decodeLatch = s.decodeLatch
  resp : t.resp = s.resp
  now : t.now = s.now
  inputs : t.inputs = s.inputs
  readData : t.readData = s.readData

/-- The outcome of a flush attempt as the state after the command shows it: if it fired, the time is recorded and one
event with a copy of the front buffer is appended (R128, R214); if not, neither changes. -/
structure Announced (fires : Prop) (s t : State) : Prop where
  fired : fires → t.lastUpdateTime = s.now ∧ t.events = s.events ++ [⟨s.now, t.buffer⟩]
  quiet : ¬ fires → t.lastUpdateTime = s.lastUpdateTime ∧ t.events = s.events

/-- A whole-buffer or drawing command inside an open scope changes the back buffer as `back` says and nothing of the
front buffer, of the flush or of `forceUpdate`. It leaves the depth as it found it while the counter has room; begun too
near saturation, an `EndScope` whose `BeginScope` was not counted takes one from the depth (R255): a command that opens
one scope at a time ends at 254 at most, one that calls procedures with scopes of their own inside its scope (`nests`)
at 253 at most. -/
structure InsideScope (nests written : Prop) (back : Memory → Prop) (s t : State) : Prop where
  buffer : t.buffer = s.buffer
  backBuffer : back t.backBuffer
  dirty : t.dirty = true ↔ s.dirty = true ∨ written
  forceUpdate : t.forceUpdate = s.forceUpdate
  lastUpdateTime : t.lastUpdateTime = s.lastUpdateTime
  events : t.events = s.events
  stillOpen : scopeOpen t
  depth : ¬ nests → t.batchDepth.toNat = min s.batchDepth.toNat 254
  depthNested : nests → t.batchDepth.toNat = min s.batchDepth.toNat 253

/-- The same command with no scope open is one commit (R127, R161): the front buffer becomes what `front` says, the
back buffer the old front buffer, both flags end clear, and a flush is attempted if anything was written or pending. -/
structure OneCommit (written : Prop) (front : Memory → Prop) (s t : State) : Prop where
  buffer : front t.buffer
  backBuffer : t.backBuffer = s.buffer
  dirty : t.dirty = false
  forceUpdate : t.forceUpdate = false
  depth : t.batchDepth = 0
  announced : Announced ((written ∨ needsUpdate s = true) ∧ throttled s = false) s t

/-- What a drawing command that writes the pixels of `P` with the value `on` does to a state (R161); `nests` says whether
it calls procedures that open scopes of their own (R126). -/
structure DrawEffect (nests : Prop) (P : Int → Int → Prop) (on : Bool) (s t : State) : Prop where
  frame : SameControl s t
  inside : scopeOpen s → InsideScope nests (hits s.cfg P) (Painted s.cfg P on s.backBuffer) s t
  outside : ¬ scopeOpen s → OneCommit (hits s.cfg P) (Painted s.cfg P on s.buffer) s t

/-! ## Pixel sets of the rules, written without the raster procedures -/

/-- Pixel (u, v), major coordinate first, is on the line from (a0, b0) to (a1, b1) with `a0 ≤ a1`: at step `j` of the
major coordinate the minor one has moved by `j*dy/dx`, rounded to the nearest integer, halves toward the start.
This is R164's loop in closed form. -/
def onMajorLine (a0 b0 a1 b1 u v : Int) : Prop :=
  ∃ j : Nat, (j : Int) ≤ a1 - a0 ∧ u = a0 + j ∧
    v = b0 + (if b0 < b1 then 1 else -1) * ((j * (b1 - b0).natAbs + (a1 - a0 - 1) / 2) / (a1 - a0))

/-- Pixel (a, b) is on the line of R164 between (x0, y0) and (x1, y1). -/
def onLine (x0 y0 x1 y1 a b : Int) : Prop :=
  if (x1 - x0).natAbs < (y1 - y0).natAbs then
    if y1 < y0 then onMajorLine y1 x1 y0 x0 b a else onMajorLine y0 x0 y1 x1 b a
  else
    if x1 < x0 then onMajorLine x1 y1 x0 y0 a b else onMajorLine x0 y0 x1 y1 a b

/-- `v` is the square root of `r² - u²` rounded to the nearest integer: where R168's decision variable puts the circle of
radius `r` at distance `u` from an axis. -/
def nearCircle (r u v : Int) : Prop := u * u + v * v - v < r * r ∧ r * r ≤ u * u + v * v + v

/-- Pixel (a, b) is on the circle of R168 about (x0, y0): the lesser and the greater of its distances to the centre's
column and row are near the circle; the centre alone for radius 0, nothing for a negative radius. -/
def onCircle (x0 y0 r a b : Int) : Prop :=
  (r = 0 ∧ a = x0 ∧ b = y0) ∨
    (1 ≤ r ∧ nearCircle r (min (a - x0).natAbs (b - y0).natAbs : Nat) (max (a - x0).natAbs (b - y0).natAbs : Nat))

/-- Pixel (a, b) is in a scanline pass of R173: its row is one of the rows of the short edge `u`–`v`, which has some
height, and its column lies between that edge and the long edge `w`–`z`, both ends included. -/
def inPass (u v w z : Point) (a b : Int) : Prop :=
  u.2 < v.2 ∧ u.2 ≤ b ∧ b ≤ v.2 ∧
    ((edgeX u v b ≤ a ∧ a ≤ edgeX w z b) ∨ (edgeX w z b ≤ a ∧ a ≤ edgeX u v b))

/-- `DRAW_CHAR` opens a scope for each set glyph bit inside its own, if its size is above 1 and the glyph has a set bit
(R191). -/
def glyphNests (p : Params) (c size : Nat) : Prop :=
  1 < size ∧ ∃ col row : Nat, col < 5 ∧ row < 8 ∧ (p.glyphRom.getD (5 * (c - 0x20) + col) 0).getLsbD row = true

/-- Pixel (a, b) is covered by a set bit of the glyph of code `c` drawn at (x, y) at a size, 0 drawing as 1 (R192). -/
def inGlyph (p : Params) (x y : Int) (c size : Nat) (a b : Int) : Prop :=
  ∃ col row : Nat, col < 5 ∧ row < 8 ∧ (p.glyphRom.getD (5 * (c - 0x20) + col) 0).getLsbD row = true ∧
    x + col * (max size 1 : Nat) ≤ a ∧ a < x + col * (max size 1 : Nat) + (max size 1 : Nat) ∧
    y + row * (max size 1 : Nat) ≤ b ∧ b < y + row * (max size 1 : Nat) + (max size 1 : Nat)

/-! ## Encoding tables -/

/-- The 25 assigned opcodes (R98). -/
def assignedOpcodes : List Byte :=
  [0x01, 0x02, 0x03, 0x04, 0x05, 0x06, 0x07, 0x08, 0x09, 0x0A, 0x0B, 0x10, 0x11, 0x12, 0x13,
   0x20, 0x21, 0x22, 0x23, 0x24, 0x25, 0x26, 0x30, 0x31, 0xA0]

/-- The header bits a command uses beside `OPC`, as a mask, from the column "header fields used" of R98; none for a
reserved opcode; none for `DRAW_XBM` (log entry 12). -/
def usedHeaderBits (opc : Byte) : Word :=
  if opc ∈ [0x03#8, 0x05, 0x06, 0x10, 0x20] then 0x00000001
  else if opc ∈ [0x09#8, 0x0A, 0x0B] then 0x00FF0000
  else if opc = 0x13 then 0x00FFFF01
  else 0

/-! ## Runs -/

/-- The commands of a list run one after another, as the port runs them (R78). -/
def execAll : List Instr → State → Result
  | [], s => .next s
  | i :: rest, s =>
    match exec i s with
    | .next t => execAll rest t
    | .fault r => .fault r
    | .refused r => .refused r

/-- `n` steps of the machine, stopping at the first refusal. -/
def stepN : Nat → State → Result
  | 0, s => .next s
  | n + 1, s =>
    match step s with
    | .next t => stepN n t
    | .fault r => .fault r
    | .refused r => .refused r

/-- The writes to the command port that push a list of words (R72). -/
def pushWords (ws : List Word) : List Input := ws.map (fun w => .write 0x000 4 w)

end Sys2Proof.Machine
end

