-- ==== Sys2Proof/Certificates/Slice0/Obligations.lean ====
section
/-! DEFINITION. The statements for the provers. In each docstring: the rule of spec/ it formalises, and, where the rule
is one the spec marks as its own decision, derivation or general knowledge, that mark. -/

open Sys2Proof Sys2Proof.Machine

/-! ## Encoding -/

/-- R91 to R98 (decisions D2 to D4, D7): decoding an encoded well-formed command gives it back, whatever follows. -/
def Obligations.EncodedCommandsDecodeToThemselves : Prop :=
  ∀ (i : Instr) (rest : List Word), i.wf = true → decode (encode i ++ rest) = .instr i rest

/-- The worked encodings of R105 (derived there from R91 to R98), both ways. -/
def Obligations.WorkedEncodingsAgree : Prop :=
  (∀ q ∈ [(Instr.setPixel 2 1 true, [(0x10000001 : Word), 0x00010002]),
      (.getPixel 2 1, [0x11000000, 0x00010002]),
      (.beginUpdate, [0x01000000]),
      (.endUpdate, [0x02000000]),
      (.write 0x41, [0x0B410000]),
      (.drawChar 3 (-2) 0x41 true 2, [0x13410201, 0xFFFE0003]),
      (.drawLine 0 0 4 0, [0x22000000, 0x00000000, 0x00000004]),
      (.fillTriangle 0 0 4 0 0 4, [0x31000000, 0x00000000, 0x00000004, 0x00040000]),
      (.drawXbm 1 1 10 2 [0xFF, 0x03, 0x01, 0x02], [0xA0000000, 0x00010001, 0x0002000A, 0x020103FF])],
    encode q.1 = q.2 ∧ decode q.2 = .instr q.1 []) ∧
  bitmapStride 10 = 2 ∧ bitmapBytes 10 2 = 4 ∧ payloadWords 0x0002000A = 1

/-- R97, R98 (decisions D3, D4): the opcode map, row by row: with the opcode in header bits 31..24, the command's operands
are the fields its row names, whatever the other bits are. For `DRAW_XBM`, `V` is one of those other bits in R98 but not
in D20: the model's choice of R98, log entry 12. -/
def Obligations.OpcodeMapNamesEachCommand : Prop :=
  let opc (h : Word) : Word := h >>> 24
  let p (h : Word) : Nat := ((h >>> 16) &&& 0xFF#32).toNat
  let q (h : Word) : Nat := ((h >>> 8) &&& 0xFF#32).toNat
  let v (h : Word) : Bool := decide (h &&& 1#32 = 1#32)
  let lo (w : Word) : Int := (w.setWidth 16).toInt
  let hi (w : Word) : Int := ((w >>> 16).setWidth 16).toInt
  ∀ h w1 w2 w3 : Word,
    (opc h = 0x01#32 → decode [h] = .instr .beginUpdate []) ∧
    (opc h = 0x02#32 → decode [h] = .instr .endUpdate []) ∧
    (opc h = 0x03#32 → decode [h] = .instr (.setForceUpdate (v h)) []) ∧
    (opc h = 0x04#32 → decode [h] = .instr .needsUpdate []) ∧
    (opc h = 0x05#32 → decode [h] = .instr (.setThrottle (v h)) []) ∧
    (opc h = 0x06#32 → decode [h] = .instr (.invert (v h)) []) ∧
    (opc h = 0x07#32 → decode [h] = .instr .clear []) ∧
    (opc h = 0x08#32 → decode [h] = .instr .fill []) ∧
    (opc h = 0x09#32 → decode [h] = .instr (.setRotation (p h)) []) ∧
    (opc h = 0x0A#32 → decode [h] = .instr (.setTextSize (p h)) []) ∧
    (opc h = 0x0B#32 → decode [h] = .instr (.write (p h)) []) ∧
    (opc h = 0x10#32 → decode [h, w1] = .instr (.setPixel (lo w1) (hi w1) (v h)) []) ∧
    (opc h = 0x11#32 → decode [h, w1] = .instr (.getPixel (lo w1) (hi w1)) []) ∧
    (opc h = 0x12#32 → decode [h, w1] = .instr (.setCursor (lo w1) (hi w1)) []) ∧
    (opc h = 0x13#32 → decode [h, w1] = .instr (.drawChar (lo w1) (hi w1) (p h) (v h) (q h)) []) ∧
    (opc h = 0x20#32 → decode [h, w1, w2] = .instr (.drawBox (lo w1) (hi w1) (lo w2) (hi w2) (v h)) []) ∧
    (opc h = 0x21#32 → decode [h, w1, w2] = .instr (.drawRect (lo w1) (hi w1) (lo w2) (hi w2)) []) ∧
    (opc h = 0x22#32 → decode [h, w1, w2] = .instr (.drawLine (lo w1) (hi w1) (lo w2) (hi w2)) []) ∧
    (opc h = 0x23#32 → decode [h, w1, w2] = .instr (.drawHLine (lo w1) (hi w1) (lo w2)) []) ∧
    (opc h = 0x24#32 → decode [h, w1, w2] = .instr (.drawVLine (lo w1) (hi w1) (lo w2)) []) ∧
    (opc h = 0x25#32 → decode [h, w1, w2] = .instr (.drawCircle (lo w1) (hi w1) (lo w2)) []) ∧
    (opc h = 0x26#32 → decode [h, w1, w2] = .instr (.fillCircle (lo w1) (hi w1) (lo w2)) []) ∧
    (opc h = 0x30#32 → decode [h, w1, w2, w3] =
      .instr (.drawTriangle (lo w1) (hi w1) (lo w2) (hi w2) (lo w3) (hi w3)) []) ∧
    (opc h = 0x31#32 → decode [h, w1, w2, w3] =
      .instr (.fillTriangle (lo w1) (hi w1) (lo w2) (hi w2) (lo w3) (hi w3)) []) ∧
    (opc h = 0xA0#32 → ∀ ps : List Word, commandLength (h :: w1 :: w2 :: ps) = some (3 + ps.length) →
      ∃ bitmap, decode (h :: w1 :: w2 :: ps) = .instr (.drawXbm (lo w1) (hi w1) (lo w2) (hi w2) bitmap) [])

/-- R92, R95, R96 (decisions D3, D7): a command's length is told by header bits 31 (PL) and 30..28 (NW) and, when
PL = 1 and NW ≥ 2, by W2 alone. -/
def Obligations.CommandLengthFollowsHeaderAndW2 : Prop :=
  (∀ (h : Word) (ops : List Word), h.getLsbD 31 = false ∨ ((h >>> 28) &&& 7#32).toNat < 2 →
    commandLength (h :: ops) = some (1 + ((h >>> 28) &&& 7#32).toNat)) ∧
  (∀ (h w1 w2 : Word) (ops : List Word), h.getLsbD 31 = true → 2 ≤ ((h >>> 28) &&& 7#32).toNat →
    let w := (w2.setWidth 16).toInt
    let ht := ((w2 >>> 16).setWidth 16).toInt
    commandLength (h :: w1 :: w2 :: ops) = some (1 + ((h >>> 28) &&& 7#32).toNat +
      if w ≤ 0 ∨ ht ≤ 0 then 0 else ((w.toNat + 7) / 8 * ht.toNat + 3) / 4)) ∧
  payloadWords 0x7FFF7FFF = 33553408

/-- R96, R68 (decision D7): payload word `q` carries bitmap bytes `4q` in bits [7:0] to `4q+3` in bits [31:24]; bytes at
index `nbytes` and beyond are not part of the bitmap. -/
def Obligations.XbmPayloadCarriesBitmapBytes : Prop :=
  ∀ (h w1 w2 : Word) (ps : List Word), h >>> 24 = 0xA0#32 → ps.length = payloadWords w2 →
    ∃ bitmap : List Byte,
      decode (h :: w1 :: w2 :: ps) = .instr (.drawXbm (w1.setWidth 16).toInt ((w1 >>> 16).setWidth 16).toInt
        (w2.setWidth 16).toInt ((w2 >>> 16).setWidth 16).toInt bitmap) [] ∧
      bitmap.length = bitmapBytes (w2.setWidth 16).toInt ((w2 >>> 16).setWidth 16).toInt ∧
      ∀ k < bitmap.length, bitmap.getD k 0 = ((ps.getD (k / 4) 0) >>> (8 * (k % 4))).setWidth 8

/-- R100 (decision D6): reserved header bits, header fields that R98 does not list as used, the unused `HI` half of W2
and the padding bytes of the last payload word do not matter. That `V` is among them for `DRAW_XBM` is the model's choice
of R98 over D20, log entry 12. -/
def Obligations.IgnoredFieldsDoNotMatter : Prop :=
  (∀ (h h' : Word) (ops : List Word), headerOpc h = headerOpc h' →
    h &&& usedHeaderBits (headerOpc h) = h' &&& usedHeaderBits (headerOpc h) →
    decode (h :: ops) = decode (h' :: ops)) ∧
  (∀ (h w1 w2 w2' : Word) (ops : List Word), headerOpc h ∈ [0x23#8, 0x24, 0x25, 0x26] →
    w2.setWidth 16 = w2'.setWidth 16 → decode (h :: w1 :: w2 :: ops) = decode (h :: w1 :: w2' :: ops)) ∧
  (∀ (h w1 w2 : Word) (ps ps' : List Word), headerOpc h = 0xA0 →
    ps.length = payloadWords w2 → ps'.length = payloadWords w2 →
    (∀ k < bitmapBytes (operandLo w2) (operandHi w2),
      ((ps.getD (k / 4) 0) >>> (8 * (k % 4))).setWidth 8 = ((ps'.getD (k / 4) 0) >>> (8 * (k % 4))).setWidth 8) →
    decode (h :: w1 :: w2 :: ps) = decode (h :: w1 :: w2 :: ps'))

/-- R99 (decision D6): 231 opcodes are reserved, 0x00 and every one with NW ≥ 4 among them; a reserved command, pushed
word by word, is consumed with the length R95 gives it and changes no state. -/
def Obligations.ReservedOpcodesAreNoOps : Prop :=
  ((List.range 256).filter fun n => BitVec.ofNat 8 n ∉ assignedOpcodes).length = 231 ∧
  (∀ opc ∈ assignedOpcodes, opc ≠ 0x00 ∧ opcodeNW opc < 4) ∧
  ∀ (s : State) (h : Word) (ops : List Word) (rest : List Input),
    headerOpc h ∉ assignedOpcodes → commandLength (h :: ops) = some (h :: ops).length →
    s.decodeLatch = [] → s.inputs = pushWords (h :: ops) ++ rest →
    stepN (h :: ops).length s = .next { s with inputs := rest }

/-! ## The command stream and the step -/

/-- R90, R104 (decisions D2, D33): the words of a command, pushed one by one into an empty latch, are latched, and the
command executes when its last word arrives, never earlier. -/
def Obligations.CommandExecutesWhenItsLastWordArrives : Prop :=
  ∀ (s : State) (i : Instr) (ws : List Word) (rest : List Input),
    decode ws = .instr i [] → s.decodeLatch = [] → s.inputs = pushWords ws ++ rest →
    (∀ k < ws.length, stepN k s =
      .next { s with decodeLatch := ws.take k, inputs := pushWords (ws.drop k) ++ rest }) ∧
    stepN ws.length s = exec i { s with inputs := rest }

/-- R104, R72: when the latched words and the word now written to `CMD` decode to a command, the step is `exec` of that
command, with the input taken and the latch emptied. -/
def Obligations.StepRunsTheDecodedCommand : Prop :=
  ∀ (s : State) (v : Word) (rest : List Input) (i : Instr),
    s.inputs = .write 0x000 4 v :: rest → decode (s.decodeLatch ++ [v]) = .instr i [] → i.wf = true →
    step s = exec i { s with inputs := rest, decodeLatch := [] }

/-- R104, R256: while words of a command are missing, a word written to `CMD` only joins the latch, and
`STATUS.PARTIAL` reads 1. -/
def Obligations.IncompleteCommandWaits : Prop :=
  ∀ (s : State) (v : Word) (rest : List Input),
    s.inputs = .write 0x000 4 v :: rest → decode (s.decodeLatch ++ [v]) = .incomplete →
    ∃ t, step s = .next t ∧ t = { s with inputs := rest, decodeLatch := s.decodeLatch ++ [v] } ∧
      (busRead t 0x008).getLsbD 16 = true

/-- R210: a well-formed stream never stops the machine: every command answers a next state from every state, there is no
fault, and a step refuses nothing but an access outside the interface. -/
def Obligations.EveryCommandReturnsANextState : Prop :=
  (∀ (i : Instr) (s : State), ∃ t, exec i s = .next t) ∧
  (Fault → False) ∧
  ∀ s : State, (∃ t, step s = .next t) ∨
    ∃ offset size, ¬ (offset % 4 = 0 ∧ size = 4) ∧ step s = .refused (.accessOutsideInterface offset size)

/-! ## Invariants and whole-machine rules -/

/-- The invariant of `Safety.lean` (R8, R23 to R25, R33, R35, R104, R127(c)) is kept by every step from every state
that meets it. -/
def Obligations.EveryStepKeepsTheInvariant : Prop :=
  ∀ s t : State, s.Inv → step s = .next t → t.Inv

/-- The state after reset meets the invariant, for every valid instance and for the instance of log entry 1. -/
def Obligations.ResetMeetsTheInvariant : Prop :=
  (∀ p : Params, p.wf → (State.resetWith p).Inv) ∧ State.reset.Inv

/-- R25: no step changes the parameters, and both buffers keep the size `NBYTES`. -/
def Obligations.GeometryNeverChanges : Prop :=
  ∀ s t : State, step s = .next t →
    t.cfg = s.cfg ∧ (s.Inv → bufferOk s.cfg t.buffer ∧ bufferOk s.cfg t.backBuffer)

/-- R45 (decisions D13, D14, D33, D37, D8): the state after reset, row by row, for every instance in range. -/
def Obligations.ResetStateIsTheResetTable : Prop :=
  ∀ p : Params, p.wf →
    let s := State.resetWith p
    s.cfg = p ∧ (∀ a, s.buffer.read a = 0x00) ∧ (∀ a, s.backBuffer.read a = 0x00) ∧
    s.dirty = false ∧ s.forceUpdate = false ∧ s.batchDepth = 0 ∧ ¬ scopeOpen s ∧
    s.throttleUpdates = true ∧ s.lastUpdateTime = 0 ∧ s.cursorX = 0 ∧ s.cursorY = 0 ∧ s.textSize = 1 ∧
    s.rotation = 0 ∧ s.displayWidth.toNat = p.width ∧ s.displayHeight.toNat = p.height ∧
    s.inverted = false ∧ s.decodeLatch = [] ∧ s.resp = false

/-- R240, R241 (decision D35): the reset input brings the engine to the state after reset of the same instance and emits
no flush event; the clock and what lies outside the engine stay (log entry 2). -/
def Obligations.ResetInputRestoresTheResetState : Prop :=
  ∀ (s : State) (rest : List Input), s.inputs = .reset :: rest →
    step s = .next { State.resetWith s.cfg with
      now := s.now, inputs := rest, events := s.events, readData := s.readData }

/-- R214, R128, R82, R30: one step emits at most one flush event; an event carries the clock value and a copy of the
front buffer as the step leaves it, and the recorded time changes only with an event (or by reset). -/
def Obligations.AtMostOneFlushEventPerStep : Prop :=
  ∀ s t : State, step s = .next t →
    (t.events = s.events ∧ (t.lastUpdateTime = s.lastUpdateTime ∨ ∃ rest, s.inputs = .reset :: rest)) ∨
    (t.events = s.events ++ [⟨s.now, t.buffer⟩] ∧ t.lastUpdateTime = s.now)

/-- R142 (derived there from R120, R124, R125, R136 to R138): while a scope is open, a command that does not close it
changes neither the front buffer nor anything the sink sees of it; only `END_UPDATE` at depth 1 closes it. -/
def Obligations.OpenScopeHidesEveryWrite : Prop :=
  ∀ (i : Instr) (s t : State), scopeOpen s → (i ≠ .endUpdate ∨ s.batchDepth ≠ 1) → exec i s = .next t →
    scopeOpen t ∧ t.buffer = s.buffer ∧ t.events = s.events ∧ t.lastUpdateTime = s.lastUpdateTime

/-- R29, R31 to R36, R40, R217: each of these registers is written only by the commands its rule names, and the clock
level only by a change of the clock input, which sets it to any value and changes nothing else (that the clock is a level
in State which an input sets, and which reset keeps, is the model's choice, log entry 2). -/
def Obligations.RegistersHaveTheWritersNamed : Prop :=
  (∀ (i : Instr) (s t : State), exec i s = .next t →
    (t.throttleUpdates ≠ s.throttleUpdates → ∃ v, i = .setThrottle v) ∧
    (t.cursorX ≠ s.cursorX ∨ t.cursorY ≠ s.cursorY → (∃ x y, i = .setCursor x y) ∨ ∃ c, i = .write c) ∧
    (t.textSize ≠ s.textSize → ∃ n, i = .setTextSize n) ∧
    (t.rotation ≠ s.rotation ∨ t.displayWidth ≠ s.displayWidth ∨ t.displayHeight ≠ s.displayHeight →
      ∃ r, i = .setRotation r) ∧
    (t.inverted ≠ s.inverted → ∃ v, i = .invert v) ∧
    (t.resp ≠ s.resp → (∃ x y, i = .getPixel x y) ∨ i = .needsUpdate) ∧
    t.decodeLatch = s.decodeLatch ∧ t.now = s.now ∧ t.inputs = s.inputs ∧ t.readData = s.readData) ∧
  (∀ (s : State) (now : Time) (rest : List Input), s.inputs = .clock now :: rest →
    step s = .next { s with now := now, inputs := rest }) ∧
  ∀ s t : State, step s = .next t → t.now ≠ s.now → ∃ rest, s.inputs = .clock t.now :: rest

/-- R34, R36, R259: rotation, reported geometry and `inverted` have no effect on pixels, flags, flushes or answers, for
any command but `INVERT`, which reads `inverted`. -/
def Obligations.MetadataDoesNotReachPixels : Prop :=
  ∀ (i : Instr) (s t t' : State) (r : BitVec 2) (dw dh : Half) (inv : Bool), (∀ v, i ≠ .invert v) →
    exec i s = .next t →
    exec i { s with rotation := r, displayWidth := dw, displayHeight := dh, inverted := inv } = .next t' →
    t'.buffer = t.buffer ∧ t'.backBuffer = t.backBuffer ∧ t'.dirty = t.dirty ∧ t'.forceUpdate = t.forceUpdate ∧
      t'.batchDepth = t.batchDepth ∧ t'.lastUpdateTime = t.lastUpdateTime ∧ t'.events = t.events ∧
      t'.resp = t.resp ∧ t'.cursorX = t.cursorX ∧ t'.cursorY = t.cursorY

/-- R24, U9: with no scope open the back buffer is unobservable: its contents reach nothing a command writes but the back
buffer itself, and a command that leaves a scope open has overwritten them. -/
def Obligations.BackBufferIsUnobservableOutsideAScope : Prop :=
  ∀ (i : Instr) (s t : State) (m : Memory), ¬ scopeOpen s → exec i s = .next t →
    ∃ m', exec i { s with backBuffer := m } = .next { t with backBuffer := m' } ∧
      (scopeOpen t → m' = t.backBuffer)

/-! ## The slave interface -/

/-- R74 (decision D9, U3): an access that is not an aligned 32-bit access is refused by name, with nothing done. -/
def Obligations.AccessOutsideTheInterfaceIsRefused : Prop :=
  ∀ (s : State) (rest : List Input) (offset size : Nat) (v : Word), ¬ (offset % 4 = 0 ∧ size = 4) →
    (s.inputs = .write offset size v :: rest ∨ s.inputs = .read offset size :: rest) →
    step s = .refused (.accessOutsideInterface offset size)

/-- R71 (decision D9): a read returns the value viewed and changes nothing, two reads with no command between them
return the same, also when the clock changes between them, a write to anything but `CMD` is ignored, and `CMD` and every
reserved offset read 0. -/
def Obligations.ReadsHaveNoSideEffect : Prop :=
  (∀ (s : State) (rest : List Input) (offset : Nat), offset % 4 = 0 → s.inputs = .read offset 4 :: rest →
    step s = .next { s with inputs := rest, readData := s.readData ++ [busRead s offset] }) ∧
  (∀ (s : State) (rest : List Input) (offset : Nat), offset % 4 = 0 →
    s.inputs = .read offset 4 :: .read offset 4 :: rest →
    stepN 2 s = .next { s with
      inputs := rest, readData := s.readData ++ [busRead s offset, busRead s offset] }) ∧
  (∀ (s : State) (rest : List Input) (offset : Nat) (now : Time), offset % 4 = 0 →
    s.inputs = .read offset 4 :: .clock now :: .read offset 4 :: rest →
    stepN 3 s = .next { s with
      now := now, inputs := rest, readData := s.readData ++ [busRead s offset, busRead s offset] }) ∧
  (∀ (s : State) (rest : List Input) (offset : Nat) (v : Word), offset % 4 = 0 → offset ≠ 0x000 →
    s.inputs = .write offset 4 v :: rest → step s = .next { s with inputs := rest }) ∧
  ∀ (s : State) (offset : Nat), offset % 4 = 0 →
    (offset = 0x000 ∨ (0x030 ≤ offset ∧ offset < 0x1000) ∨ 0x1000 + 4 * ((s.cfg.nbytes + 3) / 4) ≤ offset) →
    busRead s offset = 0

/-- R42 (decision D9): the content of each read-only register, as numbers. -/
def Obligations.RegistersShowTheirState : Prop :=
  ∀ s : State, s.cfg.wf →
    (busRead s 0x004).toNat = s.resp.toNat ∧
    (busRead s 0x00C).toNat = s.cfg.height * 65536 + s.cfg.width ∧
    (busRead s 0x010).toNat = s.cfg.resH.toNat * 65536 + s.cfg.resW.toNat ∧
    (busRead s 0x014).toNat = s.displayHeight.toNat * 65536 + s.displayWidth.toNat ∧
    (busRead s 0x018).toNat = s.cursorY.toNat * 65536 + s.cursorX.toNat ∧
    (busRead s 0x01C).toNat = s.textSize.toNat ∧
    (busRead s 0x020).toNat + 2 ^ 32 * (busRead s 0x024).toNat = s.lastUpdateTime.toNat ∧
    (busRead s 0x028).toNat = (s.cfg.width * s.cfg.height + 7) / 8 ∧
    busRead s 0x02C = s.cfg.minUpdateInterval

/-- R43 (decision D9): the fields of `STATUS`, its value after reset, and that writing it has no effect. -/
def Obligations.StatusFields : Prop :=
  (∀ s : State,
    (busRead s 0x008).getLsbD 0 = s.dirty ∧
    (busRead s 0x008).getLsbD 1 = s.forceUpdate ∧
    (busRead s 0x008).getLsbD 2 = decide (s.batchDepth ≠ 0) ∧
    (busRead s 0x008).getLsbD 3 = s.throttleUpdates ∧
    (busRead s 0x008).getLsbD 4 = s.inverted ∧
    (busRead s 0x008).extractLsb' 5 2 = s.rotation ∧
    (busRead s 0x008).getLsbD 7 = decide (s.cfg.type = .grayscale) ∧
    (busRead s 0x008).extractLsb' 8 8 = s.batchDepth ∧
    (busRead s 0x008).getLsbD 16 = decide (s.decodeLatch ≠ []) ∧
    (busRead s 0x008).extractLsb' 17 15 = 0) ∧
  (∀ p : Params, busRead (State.resetWith p) 0x008 = match p.type with
    | .monochrome => 0x00000008
    | .grayscale => 0x00000088) ∧
  ∀ (s : State) (rest : List Input) (v : Word), s.inputs = .write 0x008 4 v :: rest →
    step s = .next { s with inputs := rest }

/-- R73, R68(b), R69 (decision D9): bit `m` of window word `k` is bit `32k + m` of the front buffer, so the pixel with
that index, and 0 past the buffer's bytes; the back buffer does not matter. -/
def Obligations.WindowShowsTheFrontBuffer : Prop :=
  ∀ (s : State) (k m : Nat), m < 32 →
    (busRead s (0x1000 + 4 * k)).getLsbD m =
      if 32 * k + m < 8 * s.cfg.nbytes then (s.buffer.read ((32 * k + m) / 8)).getLsbD ((32 * k + m) % 8)
      else false

/-! ## The Framebuffer Store -/

/-- R120 (with R121, R141; decisions D16, D30): `SET_PIXEL` on the display writes one bit, into the back buffer with a scope open,
else into the front buffer followed by a flush attempt that clears both flags only if it fires; off the display it
changes no state. -/
def Obligations.SetPixelWritesOnePixel : Prop :=
  ∀ (s : State) (x y : Int) (on : Bool), s.Inv → ∃ t, exec (.setPixel x y on) s = .next t ∧
    (¬ inRange s.cfg x y → t = s) ∧
    (inRange s.cfg x y → SameControl s t ∧ t.batchDepth = s.batchDepth ∧
      (scopeOpen s → t.buffer = s.buffer ∧
        Painted s.cfg (fun a b => a = x ∧ b = y) on s.backBuffer t.backBuffer ∧
        t.dirty = true ∧ t.forceUpdate = s.forceUpdate ∧ Announced False s t) ∧
      (¬ scopeOpen s → t.backBuffer = s.backBuffer ∧
        Painted s.cfg (fun a b => a = x ∧ b = y) on s.buffer t.buffer ∧
        Announced (throttled s = false) s t ∧
        (throttled s = false → t.dirty = false ∧ t.forceUpdate = false) ∧
        (throttled s = true → t.dirty = true ∧ t.forceUpdate = s.forceUpdate)))

/-- R122 (with R60 to R62, R123): `GET_PIXEL` puts into `resp` the pixel's bit of the front buffer, 0 off the display, and
writes nothing else. -/
def Obligations.GetPixelReadsTheFrontBuffer : Prop :=
  ∀ (s : State) (x y : Int),
    exec (.getPixel x y) s = .next { s with resp :=
      if 0 ≤ x ∧ x < s.cfg.width ∧ 0 ≤ y ∧ y < s.cfg.height then
        (s.buffer.read ((y * s.cfg.width + x).toNat / 8)).getLsbD ((y * s.cfg.width + x).toNat % 8)
      else false }

/-- R140 (derived there), E1: with no scope open, `SET_PIXEL` then `GET_PIXEL` of the same pixel answers the value
written, and every other pixel answers as before. -/
def Obligations.SetPixelThenGetPixel : Prop :=
  ∀ (s : State) (x y : Int) (on : Bool), s.Inv → ¬ scopeOpen s → inRange s.cfg x y →
    ∃ t, exec (.setPixel x y on) s = .next t ∧ exec (.getPixel x y) t = .next { t with resp := on } ∧
      ∀ a b, (a, b) ≠ (x, y) → getPixel a b t = getPixel a b s

/-- R124, R130 (decision D14): `BEGIN_UPDATE` seeds the back buffer only at depth 0 and counts the scope, up to 255. -/
def Obligations.BeginUpdateOpensAScope : Prop :=
  ∀ s : State,
    (s.batchDepth = 0 →
      exec .beginUpdate s = .next { s with backBuffer := s.buffer, batchDepth := 1 }) ∧
    (0 < s.batchDepth.toNat → s.batchDepth.toNat < 255 → ∃ t, exec .beginUpdate s = .next t ∧
      t = { s with batchDepth := t.batchDepth } ∧ t.batchDepth.toNat = s.batchDepth.toNat + 1) ∧
    (s.batchDepth.toNat = 255 → exec .beginUpdate s = .next s)

/-- R125, R127, R131 (decision D15): `END_UPDATE` is a no-op with no scope open; at an inner close it only counts; at
the outermost close it swaps and attempts a flush exactly if a flag is set, and clears both flags whether or not the
flush fires. -/
def Obligations.EndUpdateCommitsOnlyTheOutermostScope : Prop :=
  ∀ s : State,
    (s.batchDepth = 0 → exec .endUpdate s = .next s) ∧
    (1 < s.batchDepth.toNat → ∃ t, exec .endUpdate s = .next t ∧
      t = { s with batchDepth := t.batchDepth } ∧ t.batchDepth.toNat = s.batchDepth.toNat - 1) ∧
    (s.batchDepth = 1 → s.dirty = false → s.forceUpdate = false →
      exec .endUpdate s = .next { s with batchDepth := 0 }) ∧
    (s.batchDepth = 1 → (s.dirty = true ∨ s.forceUpdate = true) →
      exec .endUpdate s = .next (if throttled s then
        { s with batchDepth := 0, buffer := s.backBuffer, backBuffer := s.buffer, dirty := false, forceUpdate := false }
      else
        { s with batchDepth := 0, buffer := s.backBuffer, backBuffer := s.buffer, dirty := false, forceUpdate := false,
                 lastUpdateTime := s.now, events := s.events ++ [⟨s.now, s.backBuffer⟩] }))

/-- R126, E4 (decision D14): two nested scopes around a write make one commit, at the second `END_UPDATE`; nothing is
visible after the first. -/
def Obligations.NestedScopesCommitOnce : Prop :=
  ∀ (s : State) (x y : Int) (on : Bool), s.Inv → ¬ scopeOpen s → inRange s.cfg x y →
    (∃ u, execAll [.beginUpdate, .beginUpdate, .setPixel x y on, .endUpdate] s = .next u ∧
      u.buffer = s.buffer ∧ u.events = s.events ∧ u.batchDepth = 1 ∧ u.dirty = true) ∧
    ∃ t, execAll [.beginUpdate, .beginUpdate, .setPixel x y on, .endUpdate, .endUpdate] s = .next t ∧
      Painted s.cfg (fun a b => a = x ∧ b = y) on s.buffer t.buffer ∧ t.backBuffer = s.buffer ∧
      t.batchDepth = 0 ∧ t.dirty = false ∧ t.forceUpdate = false ∧ Announced (throttled s = false) s t

/-- R133, R134, R135: the flag setters store their flag, and `NEEDS_UPDATE` answers `dirty or forceUpdate`; nothing else
changes and nothing is flushed (decision D19 for `SET_FORCE_UPDATE`). -/
def Obligations.ControlToggles : Prop :=
  ∀ (s : State) (flag : Bool),
    exec (.setForceUpdate flag) s = .next { s with forceUpdate := flag } ∧
    exec (.setThrottle flag) s = .next { s with throttleUpdates := flag } ∧
    exec .needsUpdate s = .next { s with resp := s.dirty || s.forceUpdate }

/-- R139, R35 (decision D19): `SET_ROTATION r` stores `r mod 4`, reports the geometry exchanged for odd rotations, sets
`forceUpdate`, and changes nothing else. -/
def Obligations.SetRotationReportsGeometry : Prop :=
  ∀ (s : State) (r : Nat), s.cfg.wf → ∃ t, exec (.setRotation r) s = .next t ∧
    t = { s with rotation := t.rotation, displayWidth := t.displayWidth, displayHeight := t.displayHeight,
                 forceUpdate := true } ∧
    t.rotation.toNat = r % 4 ∧
    t.displayWidth.toNat = (if r % 2 = 1 then s.cfg.height else s.cfg.width) ∧
    t.displayHeight.toNat = (if r % 2 = 1 then s.cfg.width else s.cfg.height)

/-- R136, R63 (decisions D18, D38): `INVERT` with the current state does nothing; otherwise every back-buffer byte
becomes the complement of the front-buffer byte, in a scope. -/
def Obligations.InvertComplementsTheFrontBuffer : Prop :=
  ∀ (s : State) (flag : Bool), s.Inv → ∃ t, exec (.invert flag) s = .next t ∧
    (flag = s.inverted → t = s) ∧
    (flag ≠ s.inverted → SameControl { s with inverted := flag } t ∧
      (scopeOpen s →
        InsideScope False True (fun m => ∀ a, m.read a = if a < s.cfg.nbytes then ~~~ s.buffer.read a else 0x00) s t) ∧
      (¬ scopeOpen s →
        OneCommit True (fun m => ∀ a, m.read a = if a < s.cfg.nbytes then ~~~ s.buffer.read a else 0x00) s t))

/-- E5 (source §8, invert idempotence; R136): with no scope open, inverting and inverting back restores the front buffer
bit for bit. -/
def Obligations.InvertTwiceRestores : Prop :=
  ∀ s : State, s.Inv → ¬ scopeOpen s →
    ∃ t, execAll [.invert (!s.inverted), .invert s.inverted] s = .next t ∧
      t.buffer = s.buffer ∧ t.inverted = s.inverted ∧ ¬ scopeOpen t

/-- R137, R138: `CLEAR` and `FILL` set every byte of the back buffer to 0x00 or 0xFF in a scope and always set `dirty`;
they move no cursor and leave `inverted` alone. -/
def Obligations.ClearAndFillSetEveryByte : Prop :=
  ∀ s : State, s.Inv →
    (∃ t, exec .clear s = .next t ∧ SameControl s t ∧
      (scopeOpen s → InsideScope False True (fun m => ∀ a, m.read a = 0x00) s t) ∧
      (¬ scopeOpen s → OneCommit True (fun m => ∀ a, m.read a = 0x00) s t)) ∧
    (∃ t, exec .fill s = .next t ∧ SameControl s t ∧
      (scopeOpen s → InsideScope False True (fun m => ∀ a, m.read a = if a < s.cfg.nbytes then 0xFF else 0x00) s t) ∧
      (¬ scopeOpen s → OneCommit True (fun m => ∀ a, m.read a = if a < s.cfg.nbytes then 0xFF else 0x00) s t))

/-- R128 (decision D12): a flush attempt fires exactly if a flag is set and it is not throttled; throttled means under
the interval, strictly, by the elapsed time modulo 2^64; firing records the time and emits the front buffer; the flags
are not its own to write. -/
def Obligations.FlushAttemptRule : Prop :=
  ∀ s : State,
    (throttled s = true ↔ s.throttleUpdates = true ∧
      (2 ^ 64 + s.now.toNat - s.lastUpdateTime.toNat) % 2 ^ 64 < s.cfg.minUpdateInterval.toNat) ∧
    ((s.dirty = true ∨ s.forceUpdate = true) → throttled s = false →
      flushAttempt s = (true, { s with lastUpdateTime := s.now, events := s.events ++ [⟨s.now, s.buffer⟩] })) ∧
    ((s.dirty = false ∧ s.forceUpdate = false) ∨ throttled s = true → flushAttempt s = (false, s))

/-- R143 (derived there), E6: with throttling on, a direct write that follows a firing one within the interval is
written but not announced: one timestamp update for the two. -/
def Obligations.SecondWriteWithinIntervalIsThrottled : Prop :=
  ∀ (s : State) (later : Time) (x y x' y' : Int) (on on' : Bool), s.Inv → ¬ scopeOpen s →
    inRange s.cfg x y → inRange s.cfg x' y' → s.throttleUpdates = true → throttled s = false →
    s.now.toNat ≤ later.toNat → later.toNat < s.now.toNat + s.cfg.minUpdateInterval.toNat →
    ∃ t u, exec (.setPixel x y on) s = .next t ∧ exec (.setPixel x' y' on') { t with now := later } = .next u ∧
      t.lastUpdateTime = s.now ∧ t.events = s.events ++ [⟨s.now, t.buffer⟩] ∧ t.dirty = false ∧
      u.lastUpdateTime = s.now ∧ u.events = t.events ∧ u.dirty = true ∧ getPixel x' y' u = on'

/-- R243 (derived there): the first flush attempt after reset, throttling on, fires exactly if the clock has reached
the interval. -/
def Obligations.FirstFlushAfterReset : Prop :=
  ∀ (p : Params) (now : Time) (x y : Int) (on : Bool), p.wf → inRange p x y →
    ∃ t, exec (.setPixel x y on) { State.resetWith p with now := now } = .next t ∧
      (p.minUpdateInterval.toNat ≤ now.toNat →
        t.events = [⟨now, t.buffer⟩] ∧ t.lastUpdateTime = now ∧ t.dirty = false) ∧
      (now.toNat < p.minUpdateInterval.toNat → t.events = [] ∧ t.lastUpdateTime = 0 ∧ t.dirty = true)

/-- R127(a)(b), R250: a commit whose flush is throttled is visible, but both flags are cleared, `NEEDS_UPDATE` answers 0
and no later flush attempt fires on its account, whatever the clock. -/
def Obligations.ThrottledCommitIsNeverAnnounced : Prop :=
  ∀ s : State, s.batchDepth = 1 → (s.dirty = true ∨ s.forceUpdate = true) → throttled s = true →
    ∃ t, exec .endUpdate s = .next t ∧ t.buffer = s.backBuffer ∧ t.events = s.events ∧
      t.lastUpdateTime = s.lastUpdateTime ∧ exec .needsUpdate t = .next { t with resp := false } ∧
      ∀ later : Time, flushAttempt { t with now := later } = (false, { t with now := later })

/-- R124, R255, T16 (decision D14): after `n` times `BEGIN_UPDATE` from depth 0 the depth is `min n 255`, the front buffer
unchanged and the back buffer its copy. -/
def Obligations.ScopeDepthSaturates : Prop :=
  ∀ (s : State) (n : Nat), ¬ scopeOpen s → 0 < n →
    ∃ t, execAll (List.replicate n .beginUpdate) s = .next t ∧ t.batchDepth.toNat = min n 255 ∧
      t.buffer = s.buffer ∧ t.backBuffer = s.buffer ∧ t.dirty = s.dirty ∧ t.events = s.events

/-! ## The Raster Engine -/

/-- R162: `DRAW_BOX` writes the value `on` to exactly the pixels of the clamped rectangle, as one scope. -/
def Obligations.DrawBoxFillsTheClampedRectangle : Prop :=
  ∀ (s : State) (x y w h : Int) (on : Bool), s.Inv → ∃ t, exec (.drawBox x y w h on) s = .next t ∧
    DrawEffect False (fun a b => max 0 x ≤ a ∧ a < min (x + w) s.cfg.width ∧ max 0 y ≤ b ∧ b < min (y + h) s.cfg.height)
      on s t

/-- R163 (decision D21): `DRAW_RECT` sets the boundary of the extent that `DRAW_BOX` fills, nothing for a non-positive
extent. -/
def Obligations.DrawRectOutlinesTheExtent : Prop :=
  ∀ (s : State) (x y w h : Int), s.Inv → ∃ t, exec (.drawRect x y w h) s = .next t ∧
    DrawEffect False (fun a b => 0 < w ∧ 0 < h ∧ x ≤ a ∧ a < x + w ∧ y ≤ b ∧ b < y + h ∧
      (a = x ∨ a = x + w - 1 ∨ b = y ∨ b = y + h - 1)) true s t

/-- R166, R167 (decision D5 for non-positive lengths): `DRAW_HLINE` and `DRAW_VLINE` set the pixels of a run. -/
def Obligations.DrawHLineAndVLineSetARun : Prop :=
  ∀ (s : State) (x y n : Int), s.Inv →
    (∃ t, exec (.drawHLine x y n) s = .next t ∧ DrawEffect False (fun a b => x ≤ a ∧ a < x + n ∧ b = y) true s t) ∧
    (∃ t, exec (.drawVLine x y n) s = .next t ∧ DrawEffect False (fun a b => a = x ∧ y ≤ b ∧ b < y + n) true s t)

/-- R164, R165 (the spec marks the form as general knowledge and decision D22): `DRAW_LINE` sets exactly the pixels of
the loop's closed form. -/
def Obligations.DrawLineSetsTheRoundedLine : Prop :=
  ∀ (s : State) (x0 y0 x1 y1 : Int), s.Inv → ∃ t, exec (.drawLine x0 y0 x1 y1) s = .next t ∧
    DrawEffect False (onLine x0 y0 x1 y1) true s t

/-- The three properties the source gives `drawLine` (quoted in R164): both endpoints are plotted, the operands can be
exchanged, and one pixel is plotted for each step of the major axis. -/
def Obligations.LineIsInclusiveAndSymmetric : Prop :=
  ∀ (x0 y0 x1 y1 : Int),
    (∀ s : State, exec (.drawLine x0 y0 x1 y1) s = exec (.drawLine x1 y1 x0 y0) s) ∧
    (x0, y0) ∈ linePoints x0 y0 x1 y1 ∧ (x1, y1) ∈ linePoints x0 y0 x1 y1 ∧
    (linePoints x0 y0 x1 y1).length = max (x1 - x0).natAbs (y1 - y0).natAbs + 1

/-- R168, R169 (the spec marks the form as general knowledge and decision D23): `DRAW_CIRCLE` sets exactly the pixels of
the midpoint outline, given without the loop: with `u ≤ v` the distances to the centre's column and row,
`u² + v² - v < r² ≤ u² + v² + v` (this closed form is the model author's inference from the loop); the centre alone for
radius 0; nothing for a negative radius. -/
def Obligations.DrawCircleSetsTheMidpointOutline : Prop :=
  ∀ (s : State) (x0 y0 r : Int), s.Inv → ∃ t, exec (.drawCircle x0 y0 r) s = .next t ∧
    DrawEffect False (onCircle x0 y0 r) true s t ∧
    (r = 0 → DrawEffect False (fun a b => a = x0 ∧ b = y0) true s t) ∧
    (r < 0 → DrawEffect False (fun _ _ => False) true s t)

/-- The properties the source gives `drawCircle` (quoted in R168): the pixels are symmetric under the eight reflections
of the square about the centre, and they are the outline only: each lies within half a pixel or so of the circle. -/
def Obligations.CircleIsASymmetricOutline : Prop :=
  ∀ (x0 y0 r a b : Int), (x0 + a, y0 + b) ∈ circlePoints x0 y0 r →
    (x0 - a, y0 + b) ∈ circlePoints x0 y0 r ∧ (x0 + a, y0 - b) ∈ circlePoints x0 y0 r ∧
    (x0 + b, y0 + a) ∈ circlePoints x0 y0 r ∧
    -r ≤ a * a + b * b - r * r ∧ a * a + b * b - r * r ≤ r

/-- R170: `FILL_CIRCLE` sets exactly the pixels with `dx² + dy² ≤ r²`; nothing for a negative radius. -/
def Obligations.FillCircleSetsTheDisc : Prop :=
  ∀ (s : State) (x0 y0 r : Int), s.Inv → ∃ t, exec (.fillCircle x0 y0 r) s = .next t ∧
    DrawEffect False (fun a b => -r ≤ a - x0 ∧ a - x0 ≤ r ∧ -r ≤ b - y0 ∧ b - y0 ≤ r ∧
      (a - x0) * (a - x0) + (b - y0) * (b - y0) ≤ r * r) true s t

/-- R171: `DRAW_TRIANGLE` sets exactly the pixels of its three edge lines, and commits once. -/
def Obligations.DrawTriangleSetsThreeLines : Prop :=
  ∀ (s : State) (x0 y0 x1 y1 x2 y2 : Int), s.Inv → ∃ t, exec (.drawTriangle x0 y0 x1 y1 x2 y2) s = .next t ∧
    DrawEffect True (fun a b => onLine x0 y0 x1 y1 a b ∨ onLine x1 y1 x2 y2 a b ∨ onLine x2 y2 x0 y0 a b) true s t

/-- R173 (decision D24): `FILL_TRIANGLE` sets exactly the pixels of its two scanline passes over the sorted vertices,
each pass skipped when its short edge has no height; nothing when all vertices lie on one row. That each row opens
a scope of its own, seen only in the depth left from depths 254 and 255, is the model's choice of D24's `HLine` over the
plain `SetPixel` of R173's pseudocode (log entry 13). -/
def Obligations.FillTriangleSetsTwoPasses : Prop :=
  ∀ (s : State) (x0 y0 x1 y1 x2 y2 : Int), s.Inv → ∃ t, exec (.fillTriangle x0 y0 x1 y1 x2 y2) s = .next t ∧
    DrawEffect (¬ (y0 = y1 ∧ y1 = y2)) (fun a b =>
      inPass (sortVertices (x0, y0) (x1, y1) (x2, y2)).1 (sortVertices (x0, y0) (x1, y1) (x2, y2)).2.1
        (sortVertices (x0, y0) (x1, y1) (x2, y2)).1 (sortVertices (x0, y0) (x1, y1) (x2, y2)).2.2 a b ∨
      inPass (sortVertices (x0, y0) (x1, y1) (x2, y2)).2.1 (sortVertices (x0, y0) (x1, y1) (x2, y2)).2.2
        (sortVertices (x0, y0) (x1, y1) (x2, y2)).1 (sortVertices (x0, y0) (x1, y1) (x2, y2)).2.2 a b) true s t ∧
    (y0 = y1 → y1 = y2 → DrawEffect False (fun _ _ => False) true s t)

/-- R172(a): the three exchanges are the stable sort of the vertices by y: the library's insertion sort. -/
def Obligations.VertexSortIsStable : Prop :=
  ∀ v0 v1 v2 : Point,
    [(sortVertices v0 v1 v2).1, (sortVertices v0 v1 v2).2.1, (sortVertices v0 v1 v2).2.2] =
      List.insertionSort (fun u v : Point => u.2 ≤ v.2) [v0, v1, v2]

/-- R172(b), R13 (decision D24): `EdgeX` is the integer nearest zero-ward of the exact rational, and is the endpoint's x
at each end of the edge. -/
def Obligations.EdgeXTruncatesTowardZero : Prop :=
  ∀ (a b : Point) (y : Int), a.2 < b.2 →
    let num := a.1 * (b.2 - a.2) + (b.1 - a.1) * (y - a.2)
    let den := b.2 - a.2
    (edgeX a b y * den).natAbs ≤ num.natAbs ∧ (num.natAbs : Int) < (edgeX a b y * den).natAbs + den ∧
      0 ≤ edgeX a b y * num ∧ edgeX a b a.2 = a.1 ∧ edgeX a b b.2 = b.1

/-! ## Glyphs, text, bitmaps -/

/-- R191, R192, R193 (decision D25): `DRAW_CHAR` writes `color` to exactly the pixels its set glyph bits cover, in one
commit; a code without a glyph is a complete no-op. -/
def Obligations.DrawCharPaintsSetGlyphBits : Prop :=
  ∀ (s : State) (x y : Int) (c size : Nat) (color : Bool), s.Inv → ∃ t, exec (.drawChar x y c color size) s = .next t ∧
    (c < 0x20 ∨ 0x7E < c → t = s) ∧
    (0x20 ≤ c → c ≤ 0x7E → DrawEffect (glyphNests s.cfg c size) (inGlyph s.cfg x y c size) color s t)

/-- R193, E9: the space draws nothing; with no scope open and no flag pending it makes no swap and no flush. -/
def Obligations.SpaceIsBlank : Prop :=
  ∀ (s : State) (x y : Int) (size : Nat) (color : Bool), s.Inv → ¬ scopeOpen s →
    s.dirty = false → s.forceUpdate = false →
    exec (.drawChar x y 0x20 color size) s = .next { s with backBuffer := s.buffer }

/-- R194, R195 (decision D28): the cursor and text size setters store their operands, 0 storing text size 1, and change
nothing else. -/
def Obligations.SetCursorAndTextSize : Prop :=
  (∀ (s : State) (x y : Int), coordOk x → coordOk y → ∃ t, exec (.setCursor x y) s = .next t ∧
    t = { s with cursorX := t.cursorX, cursorY := t.cursorY } ∧ t.cursorX.toInt = x ∧ t.cursorY.toInt = y) ∧
  (∀ (s : State) (n : Nat), byteOk n → ∃ t, exec (.setTextSize n) s = .next t ∧
    t = { s with textSize := t.textSize } ∧ t.textSize.toNat = if 1 ≤ n then n else 1)

/-- R196 (decision D27): `WRITE` of a line feed, a carriage return, a code without a glyph, and a printable character;
`wrap16` makes the cursor congruent modulo 2^16. -/
def Obligations.WriteDrawsAndAdvances : Prop :=
  ∀ (s : State) (c : Nat), s.Inv → byteOk c →
    (c = 0x0A → ∃ t, exec (.write c) s = .next t ∧ t = { s with cursorX := 0, cursorY := t.cursorY } ∧
      t.cursorY.toNat = (s.cursorY.toNat + 8 * s.textSize.toNat) % 65536) ∧
    (c = 0x0D → exec (.write c) s = .next s) ∧
    (c ≠ 0x0A → c ≠ 0x0D → ∃ u t, exec (.write c) s = .next t ∧ t = { u with cursorX := t.cursorX } ∧
      t.cursorX.toNat = (s.cursorX.toNat + 5 * s.textSize.toNat) % 65536 ∧
      (c < 0x20 ∨ 0x7E < c → u = s) ∧
      (0x20 ≤ c → c ≤ 0x7E →
        DrawEffect (glyphNests s.cfg c s.textSize.toNat)
          (inGlyph s.cfg s.cursorX.toInt s.cursorY.toInt c s.textSize.toNat) true s u))

/-- R197, R198, R67 (decision D7; the row stride is marked general knowledge): `DRAW_XBM` sets exactly the pixels of the
bitmap's set bits. That the command takes no value from the header's `V` is the model's choice of R197 and R198 over D20
(log entry 12). -/
def Obligations.DrawXbmSetsTheSetBits : Prop :=
  ∀ (s : State) (x y w h : Int) (bitmap : List Byte), s.Inv → ∃ t, exec (.drawXbm x y w h bitmap) s = .next t ∧
    DrawEffect False (fun a b => x ≤ a ∧ a < x + w ∧ y ≤ b ∧ b < y + h ∧
      (bitmap.getD ((b - y).toNat * ((w.toNat + 7) / 8) + (a - x).toNat / 8) 0).getLsbD ((a - x).toNat % 8) = true)
      true s t

/-- R199 (decision D29): a `PRINT` from a state with no scope open is one commit with at most one flush event: every
proper prefix of its commands leaves the front buffer, the events and the recorded time as they were, so that the front
buffer changes only with the last command. -/
def Obligations.PrintCommitsOnce : Prop :=
  ∀ (s : State) (str : List Byte), s.Inv → ¬ scopeOpen s →
    (∀ k < (printCommands str).length, ∃ u, execAll ((printCommands str).take k) s = .next u ∧
      u.buffer = s.buffer ∧ u.events = s.events ∧ u.lastUpdateTime = s.lastUpdateTime) ∧
    ∃ t, execAll (printCommands str) s = .next t ∧ ¬ scopeOpen t ∧ t.dirty = false ∧ t.forceUpdate = false ∧
      (t.events = s.events ∨ t.events = s.events ++ [⟨s.now, t.buffer⟩])
end

