-- ==== Sys2Proof/Laws/Decode.lean ====
section
/-! SUPPORT. Encoding fields: what the decoder's field readers give on the encoder's words; payload packing. -/

namespace Sys2Proof

/-! ## Header fields -/

theorem makeHeader_getLsbD (opc : Byte) (p q : Nat) (v : Bool) (i : Nat) :
    (makeHeader opc p q v).getLsbD i =
      if i = 0 then v else if i < 8 then false else if i < 16 then (BitVec.ofNat 8 q).getLsbD (i - 8)
        else if i < 24 then (BitVec.ofNat 8 p).getLsbD (i - 16) else opc.getLsbD (i - 24) := by
  simp only [makeHeader, BitVec.getLsbD_append]
  by_cases h0 : i = 0
  · subst h0; cases v <;> rfl
  · split_ifs <;> first
      | omega
      | rfl
      | simp

@[simp] theorem headerOpc_makeHeader (opc : Byte) (p q : Nat) (v : Bool) :
    headerOpc (makeHeader opc p q v) = opc := by
  refine BitVec.eq_of_getLsbD_eq fun i hi => ?_
  simp only [headerOpc, BitVec.getLsbD_extractLsb', makeHeader_getLsbD, hi, decide_true, Bool.true_and]
  rw [if_neg (by omega), if_neg (by omega), if_neg (by omega), if_neg (by omega)]
  congr 1; omega

@[simp] theorem headerP_makeHeader (opc : Byte) (p q : Nat) (v : Bool) :
    headerP (makeHeader opc p q v) = p % 256 := by
  have : (makeHeader opc p q v).extractLsb' 16 8 = BitVec.ofNat 8 p := by
    refine BitVec.eq_of_getLsbD_eq fun i hi => ?_
    simp only [BitVec.getLsbD_extractLsb', makeHeader_getLsbD, hi, decide_true, Bool.true_and]
    rw [if_neg (by omega), if_neg (by omega), if_neg (by omega), if_pos (by omega)]
    congr 1; omega
  simp [headerP, this]

@[simp] theorem headerQ_makeHeader (opc : Byte) (p q : Nat) (v : Bool) :
    headerQ (makeHeader opc p q v) = q % 256 := by
  have : (makeHeader opc p q v).extractLsb' 8 8 = BitVec.ofNat 8 q := by
    refine BitVec.eq_of_getLsbD_eq fun i hi => ?_
    simp only [BitVec.getLsbD_extractLsb', makeHeader_getLsbD, hi, decide_true, Bool.true_and]
    rw [if_neg (by omega), if_neg (by omega), if_pos (by omega)]
    congr 1; omega
  simp [headerQ, this]

@[simp] theorem headerV_makeHeader (opc : Byte) (p q : Nat) (v : Bool) :
    headerV (makeHeader opc p q v) = v := by
  rw [headerV, makeHeader_getLsbD, if_pos rfl]

/-! ## Operand words -/

theorem toInt_ofInt_coord {v : Int} (h : coordOk v) : (BitVec.ofInt 16 v).toInt = v := by
  rw [BitVec.toInt_ofInt, Int.bmod_eq_of_le] <;> omega

@[simp] theorem operandLo_makePair {hi lo : Int} (h : coordOk lo) : operandLo (makePair hi lo) = lo := by
  have : (makePair hi lo).extractLsb' 0 16 = BitVec.ofInt 16 lo := by
    refine BitVec.eq_of_getLsbD_eq fun i hi' => ?_
    simp only [makePair, BitVec.getLsbD_append, BitVec.getLsbD_extractLsb', hi', decide_true, Bool.true_and]
    rw [if_pos (by omega), Nat.zero_add]
  rw [operandLo, this, toInt_ofInt_coord h]

@[simp] theorem operandHi_makePair {hi lo : Int} (h : coordOk hi) : operandHi (makePair hi lo) = hi := by
  have : (makePair hi lo).extractLsb' 16 16 = BitVec.ofInt 16 hi := by
    refine BitVec.eq_of_getLsbD_eq fun i hi' => ?_
    simp only [makePair, BitVec.getLsbD_append, BitVec.getLsbD_extractLsb', hi', decide_true, Bool.true_and]
    rw [if_neg (by omega), Nat.add_sub_cancel_left]
  rw [operandHi, this, toInt_ofInt_coord h]

/-! ## Payload -/

theorem unpackWord_packWord (a b c d : Byte) : unpackWord (packWord a b c d) = [a, b, c, d] := by
  have h0 : (packWord a b c d).extractLsb' 0 8 = a := by
    refine BitVec.eq_of_getLsbD_eq fun i hi => ?_
    simp only [packWord, BitVec.getLsbD_append, BitVec.getLsbD_extractLsb', hi, decide_true, Bool.true_and]
    rw [if_pos (by omega), Nat.zero_add]
  have h1 : (packWord a b c d).extractLsb' 8 8 = b := by
    refine BitVec.eq_of_getLsbD_eq fun i hi => ?_
    simp only [packWord, BitVec.getLsbD_append, BitVec.getLsbD_extractLsb', hi, decide_true, Bool.true_and]
    rw [if_neg (by omega), if_pos (by omega), Nat.add_sub_cancel_left]
  have h2 : (packWord a b c d).extractLsb' 16 8 = c := by
    refine BitVec.eq_of_getLsbD_eq fun i hi => ?_
    simp only [packWord, BitVec.getLsbD_append, BitVec.getLsbD_extractLsb', hi, decide_true, Bool.true_and]
    rw [if_neg (by omega), if_neg (by omega), if_pos (by omega)]
    congr 1; omega
  have h3 : (packWord a b c d).extractLsb' 24 8 = d := by
    refine BitVec.eq_of_getLsbD_eq fun i hi => ?_
    simp only [packWord, BitVec.getLsbD_append, BitVec.getLsbD_extractLsb', hi, decide_true, Bool.true_and]
    rw [if_neg (by omega), if_neg (by omega), if_neg (by omega)]
    congr 1; omega
  rw [unpackWord, h0, h1, h2, h3]

theorem packPayload_length (bs : List Byte) : (packPayload bs).length = (bs.length + 3) / 4 := by
  induction bs using packPayload.induct with
  | case1 => simp [packPayload]
  | case2 => simp [packPayload]
  | case3 => simp [packPayload]
  | case4 => simp [packPayload]
  | case5 a b c d rest ih => simp only [packPayload, List.length_cons, ih]; omega

/-- Packing a bitmap into payload words loses none of its bytes (R96). -/
theorem unpackPayload_packPayload (bs : List Byte) : unpackPayload bs.length (packPayload bs) = bs := by
  unfold unpackPayload
  induction bs using packPayload.induct with
  | case1 => rfl
  | case2 a => simp [packPayload, unpackWord_packWord]
  | case3 a b => simp [packPayload, unpackWord_packWord]
  | case4 a b c => simp [packPayload, unpackWord_packWord]
  | case5 a b c d rest ih => simp [packPayload, unpackWord_packWord, ih]

/-! ## Lengths and prefixes -/

/-- A decoded command or reserved no-op took as many words as R95 gives it. -/
theorem decode_of_length {h : Word} {ops : List Word} {n : Nat} (hn : commandLength (h :: ops) = some n)
    (hle : n ≤ (h :: ops).length) :
    decode (h :: ops) = match decodeCommand h (ops.take (n - 1)) with
      | some i => .instr i (ops.drop (n - 1))
      | none => .reserved (headerOpc h) (ops.drop (n - 1)) := by
  cases hd : decodeCommand h (ops.take (n - 1)) <;> simp only [decode, hn, if_pos hle, hd]

/-- The decoder waits exactly while a word of the first command is missing (R104). -/
theorem decode_incomplete_iff (ws : List Word) : decode ws = .incomplete ↔ commandComplete ws = false := by
  cases ws with
  | nil => simp [decode, commandComplete, commandLength]
  | cons h ops =>
    cases hn : commandLength (h :: ops) with
    | none => simp [decode, commandComplete, hn]
    | some n =>
      by_cases hle : n ≤ (h :: ops).length
      · rw [decode_of_length hn hle]
        simp only [commandComplete, hn, hle, decide_true]
        split <;> simp
      · simp only [decode, commandComplete, hn, hle, if_false, decide_false]

theorem commandLength_pos {ws : List Word} {n : Nat} (h : commandLength ws = some n) : 0 < n := by
  unfold commandLength at h
  split at h
  · cases h
  · simp only at h
    split at h
    · split at h
      · simp at h; omega
      · cases h
    · simp at h; omega

/-- Words after the third do not matter to the length (R95). -/
theorem commandLength_append {ws : List Word} {n : Nat} (h : commandLength ws = some n) (more : List Word) :
    commandLength (ws ++ more) = some n := by
  match ws, h with
  | [], h => cases h
  | [a], h =>
    unfold commandLength at h ⊢
    simp only [List.cons_append, List.nil_append] at h ⊢
    split at h
    · cases h
    · rw [if_neg ‹_›]; exact h
  | [a, b], h =>
    unfold commandLength at h ⊢
    simp only [List.cons_append, List.nil_append] at h ⊢
    split at h
    · cases h
    · rw [if_neg ‹_›]; exact h
  | a :: b :: c :: t, h => exact h

/-- A list of words too short to hold a command whose length it belongs to is not complete (R104). -/
theorem commandComplete_prefix {ws : List Word} {n k : Nat} (h : commandLength ws = some n) (hk : k < n) : commandComplete (ws.take k) = false := by
  unfold commandComplete
  cases hc : commandLength (ws.take k) with
  | none => rfl
  | some m =>
    have := commandLength_append hc (ws.drop k)
    rw [List.take_append_drop, h] at this
    cases this
    simp [List.length_take]
    omega

end Sys2Proof
end

