-- ==== Sys2Proof/Laws/Memory.lean ====
section
/-! SUPPORT. Memories: read after write, the canonical form is kept, equal bytes mean equal memories. -/

namespace Sys2Proof.Machine

@[simp] theorem read_nil (a : Nat) : Memory.read [] a = 0 := rfl

theorem read_cons (b : Nat) (v : Byte) (m : Memory) (a : Nat) :
    Memory.read ((b, v) :: m) a = if a = b then v else m.read a := rfl

/-- An address that no cell lists reads 0x00. -/
theorem read_of_not_listed (m : Memory) (a : Nat) (h : ∀ c ∈ m, c.1 ≠ a) : m.read a = 0 := by
  induction m with
  | nil => rfl
  | cons c m ih =>
    obtain ⟨b, v⟩ := c
    rw [read_cons, if_neg (Ne.symm (h (b, v) (by simp)))]
    exact ih fun c hc => h c (by simp [hc])

/-- In a canonical memory every cell is above the head. -/
theorem wf_tail {c : Host.Cell} {m : Memory} (h : Memory.wf (c :: m)) : m.wf :=
  ⟨(List.pairwise_cons.1 h.1).2, fun d hd => h.2 d (by simp [hd])⟩

theorem read_tail_head {b : Nat} {v : Byte} {m : Memory} (h : Memory.wf ((b, v) :: m)) (a : Nat) (ha : a ≤ b) :
    m.read a = 0 :=
  read_of_not_listed m a fun c hc => by
    have := (List.pairwise_cons.1 h.1).1 c hc
    omega

/-- Read after write (one law for both cases). -/
theorem read_write (m : Memory) (hm : m.wf) (a : Nat) (v : Byte) (b : Nat) :
    (m.write a v).read b = if b = a then v else m.read b := by
  induction m with
  | nil =>
    simp only [Memory.write]
    split <;> simp_all [read_cons]
  | cons c m ih =>
    obtain ⟨k, w⟩ := c
    have hz := read_tail_head hm
    have ih := ih (wf_tail hm)
    simp only [Memory.write]
    split
    · have h0 : Memory.read m a = 0 := hz a (by omega)
      split
      · by_cases hb : b = a
        · subst hb; rw [read_cons, if_neg (by omega), if_pos rfl, h0]; simp_all
        · simp [hb]
      · rw [read_cons]
    · split
      · subst_vars
        have h0 : Memory.read m k = 0 := hz k le_rfl
        split
        · by_cases hb : b = k
          · simp_all
          · simp [read_cons, hb]
        · by_cases hb : b = k <;> simp [read_cons, hb]
      · rw [read_cons, ih, read_cons]
        by_cases hb : b = k
        · subst hb; simp_all
          omega
        · simp [hb]

/-- The cells of a written memory are old cells or the written one. -/
theorem mem_write {m : Memory} {a : Nat} {v : Byte} {c : Host.Cell} (h : c ∈ m.write a v) :
    c ∈ m ∨ (c = (a, v) ∧ v ≠ 0) := by
  induction m with
  | nil =>
    simp only [Memory.write] at h
    split at h <;> simp_all
  | cons d m ih =>
    obtain ⟨k, w⟩ := d
    simp only [Memory.write] at h
    split at h
    · split at h
      · exact .inl h
      · rcases List.mem_cons.1 h with rfl | h
        · exact .inr ⟨rfl, ‹_›⟩
        · exact .inl h
    · split at h
      · split at h
        · exact .inl (by simp [h])
        · rcases List.mem_cons.1 h with rfl | h
          · exact .inr ⟨rfl, ‹_›⟩
          · exact .inl (by simp [h])
      · rcases List.mem_cons.1 h with rfl | h
        · exact .inl (by simp)
        · rcases ih h with h | h
          · exact .inl (by simp [h])
          · exact .inr h

/-- A write keeps the canonical form. -/
theorem write_wf (m : Memory) (hm : m.wf) (a : Nat) (v : Byte) : (m.write a v).wf := by
  refine ⟨?_, fun c hc => ?_⟩
  · induction m with
    | nil => simp only [Memory.write]; split <;> simp
    | cons d m ih =>
      obtain ⟨k, w⟩ := d
      have hp := List.pairwise_cons.1 hm.1
      simp only [Memory.write]
      split
      · split
        · exact hm.1
        · refine List.pairwise_cons.2 ⟨fun c hc => ?_, hm.1⟩
          rcases List.mem_cons.1 hc with rfl | hc
          · assumption
          · have := hp.1 c hc; simp_all; omega
      · split
        · split
          · exact hp.2
          · subst_vars; exact List.pairwise_cons.2 ⟨hp.1, hp.2⟩
        · refine List.pairwise_cons.2 ⟨fun c hc => ?_, ih (wf_tail hm)⟩
          rcases mem_write hc with hc | ⟨rfl, -⟩
          · exact hp.1 c hc
          · show k < a
            omega
  · rcases mem_write hc with hc | ⟨rfl, hv⟩
    · exact hm.2 c hc
    · exact hv

/-- A write below `n` keeps a memory below `n`. -/
theorem write_within {m : Memory} {n a : Nat} (hm : m.within n) (ha : a < n) (v : Byte) :
    (m.write a v).within n := fun c hc => by
  rcases mem_write hc with hc | ⟨rfl, -⟩
  · exact hm c hc
  · exact ha

/-! ## Whole memories -/

theorem mem_tabulate {n : Nat} {f : Nat → Byte} {c : Host.Cell} :
    c ∈ Memory.tabulate n f ↔ c.1 < n ∧ c.2 = f c.1 ∧ c.2 ≠ 0 := by
  obtain ⟨a, v⟩ := c
  simp only [Memory.tabulate, List.mem_filterMap, List.mem_range]
  constructor
  · rintro ⟨b, hb, h⟩
    split at h
    · cases h
    · cases h; exact ⟨hb, rfl, ‹_›⟩
  · rintro ⟨ha, rfl, hv⟩
    exact ⟨a, ha, if_neg hv⟩

/-- A tabulated memory is canonical. -/
theorem tabulate_wf (n : Nat) (f : Nat → Byte) : (Memory.tabulate n f).wf := by
  refine ⟨?_, fun c hc => (mem_tabulate.1 hc).2.2⟩
  refine List.Pairwise.filterMap _ (R := (· < ·)) (fun a b hab c hc d hd => ?_) List.pairwise_lt_range
  split at hc <;> split at hd <;> simp_all
  subst hc hd; exact hab

theorem tabulate_within (n : Nat) (f : Nat → Byte) : (Memory.tabulate n f).within n :=
  fun _ hc => (mem_tabulate.1 hc).1

/-- A listed cell is what its address reads. -/
theorem read_of_mem {m : Memory} (hm : m.wf) {c : Host.Cell} (hc : c ∈ m) : m.read c.1 = c.2 := by
  induction m with
  | nil => simp at hc
  | cons d m ih =>
    obtain ⟨k, w⟩ := d
    rcases List.mem_cons.1 hc with rfl | hc
    · simp [read_cons]
    · have := (List.pairwise_cons.1 hm.1).1 c hc
      rw [read_cons, if_neg (by simp at this; omega), ih (wf_tail hm) hc]

/-- A byte of a tabulated memory. -/
theorem read_tabulate (n : Nat) (f : Nat → Byte) (a : Nat) :
    (Memory.tabulate n f).read a = if a < n then f a else 0 := by
  by_cases h : a < n ∧ f a ≠ 0
  · rw [if_pos h.1]
    exact read_of_mem (tabulate_wf n f) (c := (a, f a)) (mem_tabulate.2 ⟨h.1, rfl, h.2⟩)
  · rw [read_of_not_listed]
    · split <;> simp_all
    · rintro ⟨b, v⟩ hc rfl
      obtain ⟨h1, h2, h3⟩ := mem_tabulate.1 hc
      exact h ⟨h1, h2 ▸ h3⟩

/-- An address past a memory's bytes reads 0x00. -/
theorem read_of_within {m : Memory} {n a : Nat} (hm : m.within n) (ha : n ≤ a) : m.read a = 0 :=
  read_of_not_listed m a fun c hc => by have := hm c hc; omega

/-- Canonical memories with the same bytes are the same data. -/
theorem memory_ext {m m' : Memory} (hm : m.wf) (hm' : m'.wf) (h : ∀ a, m.read a = m'.read a) : m = m' := by
  have mem_iff : ∀ {m : Memory}, m.wf → ∀ c : Host.Cell, c ∈ m ↔ m.read c.1 = c.2 ∧ c.2 ≠ 0 := by
    intro m hm c
    refine ⟨fun hc => ⟨read_of_mem hm hc, hm.2 c hc⟩, fun ⟨h1, h2⟩ => ?_⟩
    by_contra hc
    by_cases hl : ∃ d ∈ m, d.1 = c.1
    · obtain ⟨d, hd, he⟩ := hl
      have := read_of_mem hm hd
      exact hc (by
        have : d = c := Prod.ext he (by rw [← this, he, h1])
        exact this ▸ hd)
    · exact h2 (h1 ▸ read_of_not_listed m c.1 fun d hd he => hl ⟨d, hd, he⟩)
  have hs : ∀ {m : Memory}, m.wf → m.Pairwise (fun a b : Host.Cell => a.1 < b.1) := fun hm => hm.1
  have hperm : m.Perm m' := by
    refine (List.perm_ext_iff_of_nodup ?_ ?_).2 fun c => ?_
    · exact (hs hm).imp fun hab he => by rw [he] at hab; omega
    · exact (hs hm').imp fun hab he => by rw [he] at hab; omega
    · rw [mem_iff hm, mem_iff hm', h]
  exact hperm.eq_of_pairwise (fun a b _ _ h1 h2 => by omega) (hs hm) (hs hm')

/-! ## Bits -/

@[simp] theorem setByteBit_getLsbD (v : Byte) (k j : Nat) (on : Bool) (hj : j < 8) :
    (setByteBit v k on).getLsbD j = if j = k then on else v.getLsbD j := by
  unfold setByteBit
  cases on
  · by_cases h : j = k
    · simp [h]
    · simp [h, hj]
  · by_cases h : j = k
    · subst h; simp [hj]
    · simp [h]
      exact fun _ hk => absurd hk.symm h

/-- A bit after a bit write. -/
theorem bit_setBit (m : Memory) (hm : m.wf) (n k : Nat) (on : Bool) :
    (m.setBit n on).bit k = if k = n then on else m.bit k := by
  unfold Memory.setBit Memory.bit
  rw [read_write m hm]
  by_cases hd : k / 8 = n / 8
  · rw [if_pos hd, setByteBit_getLsbD _ _ _ _ (Nat.mod_lt _ (by omega)), hd]
    by_cases hk : k = n
    · simp [hk]
    · rw [if_neg (by omega), if_neg hk]
  · rw [if_neg hd, if_neg (by rintro rfl; exact hd rfl)]

theorem setBit_ok {p : Params} {m : Memory} (hm : bufferOk p m) {n : Nat} (hn : n / 8 < p.nbytes) (on : Bool) :
    bufferOk p (m.setBit n on) := ⟨write_wf m hm.1 _ _, write_within hm.2 hn _⟩

/-- Buffers with the same bits are the same data. -/
theorem buffer_ext {m m' : Memory} (hm : m.wf) (hm' : m'.wf) (h : ∀ n, m.bit n = m'.bit n) : m = m' :=
  memory_ext hm hm' fun a => by
    refine BitVec.eq_of_getLsbD_eq fun i hi => ?_
    have := h (8 * a + i)
    unfold Memory.bit at this
    rwa [show (8 * a + i) / 8 = a by omega, show (8 * a + i) % 8 = i by omega] at this

end Sys2Proof.Machine
end

