-- ==== Sys2Proof/Laws/State.lean ====
section
/-! SUPPORT. The fields of updated states: one lemma per field an update touches, true by definition. -/

namespace Sys2Proof.Machine

@[simp] theorem swapBuffers_buffer (s : State) : (swapBuffers s).buffer = s.backBuffer := rfl
@[simp] theorem swapBuffers_backBuffer (s : State) : (swapBuffers s).backBuffer = s.buffer := rfl
@[simp] theorem swapBuffers_cfg (s : State) : (swapBuffers s).cfg = s.cfg := rfl
@[simp] theorem swapBuffers_dirty (s : State) : (swapBuffers s).dirty = s.dirty := rfl
@[simp] theorem swapBuffers_forceUpdate (s : State) : (swapBuffers s).forceUpdate = s.forceUpdate := rfl
@[simp] theorem swapBuffers_batchDepth (s : State) : (swapBuffers s).batchDepth = s.batchDepth := rfl
@[simp] theorem swapBuffers_needsUpdate (s : State) : needsUpdate (swapBuffers s) = needsUpdate s := rfl
@[simp] theorem swapBuffers_throttled (s : State) : throttled (swapBuffers s) = throttled s := rfl

@[simp] theorem resetWith_cfg (p : Params) : (State.resetWith p).cfg = p := rfl
@[simp] theorem resetWith_buffer (p : Params) : (State.resetWith p).buffer = [] := rfl
@[simp] theorem resetWith_backBuffer (p : Params) : (State.resetWith p).backBuffer = [] := rfl
@[simp] theorem resetWith_dirty (p : Params) : (State.resetWith p).dirty = false := rfl
@[simp] theorem resetWith_forceUpdate (p : Params) : (State.resetWith p).forceUpdate = false := rfl
@[simp] theorem resetWith_batchDepth (p : Params) : (State.resetWith p).batchDepth = 0 := rfl
@[simp] theorem resetWith_textSize (p : Params) : (State.resetWith p).textSize = 1 := rfl
@[simp] theorem resetWith_rotation (p : Params) : (State.resetWith p).rotation = 0 := rfl
@[simp] theorem resetWith_decodeLatch (p : Params) : (State.resetWith p).decodeLatch = [] := rfl
@[simp] theorem resetWith_displayWidth (p : Params) :
    (State.resetWith p).displayWidth = BitVec.ofNat 16 p.width := rfl
@[simp] theorem resetWith_displayHeight (p : Params) :
    (State.resetWith p).displayHeight = BitVec.ofNat 16 p.height := rfl

@[simp] theorem resetInput_cfg (s : State) : (resetInput s).cfg = s.cfg := rfl
@[simp] theorem resetInput_events (s : State) : (resetInput s).events = s.events := rfl
@[simp] theorem resetInput_inputs (s : State) : (resetInput s).inputs = s.inputs := rfl
@[simp] theorem resetInput_now (s : State) : (resetInput s).now = s.now := rfl

/-- `SameControl` holds of a state and itself. -/
theorem SameControl.refl (s : State) : SameControl s s := by constructor <;> rfl

/-- `SameControl` composes. -/
theorem SameControl.trans {s t u : State} (h : SameControl s t) (k : SameControl t u) : SameControl s u where
  cfg := k.cfg.trans h.cfg
  throttleUpdates := k.throttleUpdates.trans h.throttleUpdates
  cursorX := k.cursorX.trans h.cursorX
  cursorY := k.cursorY.trans h.cursorY
  textSize := k.textSize.trans h.textSize
  rotation := k.rotation.trans h.rotation
  displayWidth := k.displayWidth.trans h.displayWidth
  displayHeight := k.displayHeight.trans h.displayHeight
  inverted := k.inverted.trans h.inverted
  decodeLatch := k.decodeLatch.trans h.decodeLatch
  resp := k.resp.trans h.resp
  now := k.now.trans h.now
  inputs := k.inputs.trans h.inputs
  readData := k.readData.trans h.readData

end Sys2Proof.Machine
end

