-- ==== Sys2Proof/Laws/Ops.lean ====
section
/-! SUPPORT. What the shared operations do: pixels, plotting, the batch scope, the commit. -/

namespace Sys2Proof.Machine

/-! ## Addresses of pixels -/

/-- A pixel on the display lies in a byte of the buffer (R61, R63). -/
theorem bitIndex_lt {p : Params} {x y : Int} (h : inRange p x y) : bitIndex p x y < p.width * p.height := by
  obtain ⟨h1, h2, h3, h4⟩ := h
  unfold bitIndex
  have hx : x.toNat < p.width := by omega
  have hy : y.toNat + 1 ≤ p.height := by omega
  calc y.toNat * p.width + x.toNat < y.toNat * p.width + p.width := by omega
    _ = (y.toNat + 1) * p.width := by ring
    _ ≤ p.height * p.width := Nat.mul_le_mul_right _ hy
    _ = p.width * p.height := by ring

theorem bitIndex_div_lt {p : Params} {x y : Int} (h : inRange p x y) : bitIndex p x y / 8 < p.nbytes := by
  have := bitIndex_lt h
  unfold Params.nbytes
  omega

/-- Different pixels on the display have different bit indices (R61). -/
theorem bitIndex_inj {p : Params} {x y x' y' : Int} (h : inRange p x y) (h' : inRange p x' y')
    (he : bitIndex p x y = bitIndex p x' y') : x = x' ∧ y = y' := by
  obtain ⟨h1, h2, h3, h4⟩ := h
  obtain ⟨k1, k2, k3, k4⟩ := h'
  unfold bitIndex at he
  have hx : x.toNat < p.width := by omega
  have hx' : x'.toNat < p.width := by omega
  have hm := congrArg (· % p.width) he
  have hd := congrArg (· / p.width) he
  simp only [Nat.mul_comm _ p.width, Nat.mul_add_mod, Nat.mod_eq_of_lt hx, Nat.mod_eq_of_lt hx',
    Nat.mul_add_div (by omega : 0 < p.width), Nat.div_eq_of_lt hx, Nat.div_eq_of_lt hx'] at hm hd
  omega

/-! ## Painting a list of points into a memory -/

/-- The writes of `plot` to the memory it targets. -/
def paint (p : Params) (points : List Point) (on : Bool) (m : Memory) : Memory :=
  points.foldl (fun m q => if inRange p q.1 q.2 then m.setBit (bitIndex p q.1 q.2) on else m) m

/-- Whether a list of points has one on the display. -/
def anyInRange (p : Params) (points : List Point) : Bool := points.any fun q => decide (inRange p q.1 q.2)

theorem anyInRange_iff (p : Params) (points : List Point) :
    anyInRange p points = true ↔ hits p (fun x y => (x, y) ∈ points) := by
  simp only [anyInRange, List.any_eq_true, decide_eq_true_eq, hits]
  exact ⟨fun ⟨q, hq, h⟩ => ⟨q.1, q.2, h, hq⟩, fun ⟨x, y, h, hq⟩ => ⟨(x, y), hq, h⟩⟩

theorem anyInRange_cons (p : Params) (q : Point) (points : List Point) :
    anyInRange p (q :: points) = (decide (inRange p q.1 q.2) || anyInRange p points) := rfl

theorem paint_cons (p : Params) (q : Point) (points : List Point) (on : Bool) (m : Memory) :
    paint p (q :: points) on m =
      paint p points on (if inRange p q.1 q.2 then m.setBit (bitIndex p q.1 q.2) on else m) := rfl

theorem anyInRange_append (p : Params) (ps qs : List Point) :
    anyInRange p (ps ++ qs) = (anyInRange p ps || anyInRange p qs) := List.any_append

theorem paint_append (p : Params) (ps qs : List Point) (on : Bool) (m : Memory) :
    paint p (ps ++ qs) on m = paint p qs on (paint p ps on m) := List.foldl_append

/-- Painting keeps a buffer a buffer. -/
theorem paint_ok {p : Params} (points : List Point) (on : Bool) {m : Memory} (hm : bufferOk p m) :
    bufferOk p (paint p points on m) := by
  induction points generalizing m with
  | nil => exact hm
  | cons q points ih =>
    simp only [paint, List.foldl_cons] at ih ⊢
    split
    · exact ih (setBit_ok hm (bitIndex_div_lt ‹_›) on)
    · exact ih hm

/-- Each bit after painting: written if it is one of the points on the display, else as before. -/
theorem paint_bit {p : Params} (points : List Point) (on : Bool) {m : Memory} (hm : bufferOk p m) (n : Nat) :
    (covers p (fun x y => (x, y) ∈ points) n → (paint p points on m).bit n = on) ∧
      (¬ covers p (fun x y => (x, y) ∈ points) n → (paint p points on m).bit n = m.bit n) := by
  induction points generalizing m with
  | nil => exact ⟨fun ⟨_, _, _, h, _⟩ => by simp at h, fun _ => rfl⟩
  | cons q points ih =>
    have hok : bufferOk p (if inRange p q.1 q.2 then m.setBit (bitIndex p q.1 q.2) on else m) := by
      split
      · exact setBit_ok hm (bitIndex_div_lt ‹_›) on
      · exact hm
    have hmono : covers p (fun x y => (x, y) ∈ points) n → covers p (fun x y => (x, y) ∈ q :: points) n :=
      fun ⟨x, y, hr, hp, he⟩ => ⟨x, y, hr, by simp [hp], he⟩
    rw [paint_cons]
    refine ⟨fun hc => ?_, fun hc => ?_⟩
    · by_cases hp : covers p (fun x y => (x, y) ∈ points) n
      · exact (ih hok).1 hp
      · rw [(ih hok).2 hp]
        obtain ⟨x, y, hr, hmem, he⟩ := hc
        rcases List.mem_cons.1 hmem with hq | hq
        · subst hq
          rw [if_pos hr, bit_setBit _ hm.1, if_pos he.symm]
        · exact absurd ⟨x, y, hr, hq, he⟩ hp
    · rw [(ih hok).2 fun h => hc (hmono h)]
      split
      · rw [bit_setBit _ hm.1, if_neg]
        rintro rfl
        exact hc ⟨q.1, q.2, ‹_›, by simp, rfl⟩
      · rfl

/-- Painting a list of points is `Painted` for every set of pixels with the same members on the display. -/
theorem paint_painted {p : Params} {points : List Point} {P : Int → Int → Prop} (on : Bool) {m : Memory}
    (hm : bufferOk p m) (h : ∀ x y, inRange p x y → (P x y ↔ (x, y) ∈ points)) :
    Painted p P on m (paint p points on m) := by
  have hc : ∀ n, covers p P n ↔ covers p (fun x y => (x, y) ∈ points) n := fun n =>
    ⟨fun ⟨x, y, hr, hp, he⟩ => ⟨x, y, hr, (h x y hr).1 hp, he⟩,
      fun ⟨x, y, hr, hp, he⟩ => ⟨x, y, hr, (h x y hr).2 hp, he⟩⟩
  exact ⟨fun n hn => (paint_bit points on hm n).1 ((hc n).1 hn),
    fun n hn => (paint_bit points on hm n).2 fun h' => hn ((hc n).2 h')⟩

theorem hits_congr {p : Params} {P Q : Int → Int → Prop} (h : ∀ x y, inRange p x y → (P x y ↔ Q x y)) :
    hits p P ↔ hits p Q :=
  ⟨fun ⟨x, y, hr, hp⟩ => ⟨x, y, hr, (h x y hr).1 hp⟩, fun ⟨x, y, hr, hp⟩ => ⟨x, y, hr, (h x y hr).2 hp⟩⟩

/-! ## Plotting in an open scope -/

/-- `SetPixel` off the display changes no state at all (R120, R141). -/
theorem setPixel_off {x y : Int} {s : State} (h : ¬ inRange s.cfg x y) (on : Bool) : setPixel x y on s = s :=
  if_neg h

/-- `SetPixel` on the display with a scope open. -/
theorem setPixel_open {x y : Int} {s : State} (h : inRange s.cfg x y) (ho : scopeOpen s) (on : Bool) :
    setPixel x y on s =
      { s with backBuffer := s.backBuffer.setBit (bitIndex s.cfg x y) on, dirty := true } := by
  unfold setPixel writePixel
  rw [if_pos h, if_pos ho, if_pos ho]

/-- `SetPixel` on the display with no scope open: a direct write and a flush attempt. -/
theorem setPixel_direct {x y : Int} {s : State} (h : inRange s.cfg x y) (ho : ¬ scopeOpen s) (on : Bool) :
    setPixel x y on s =
      flushDirect { s with buffer := s.buffer.setBit (bitIndex s.cfg x y) on, dirty := true } := by
  unfold setPixel writePixel
  rw [if_pos h, if_neg ho, if_neg ho]

/-- Plotting with a scope open changes only the back buffer and `dirty`. -/
theorem plot_open (points : List Point) (on : Bool) {s : State} (ho : scopeOpen s) :
    plot points on s = { s with
      backBuffer := paint s.cfg points on s.backBuffer, dirty := s.dirty || anyInRange s.cfg points } := by
  induction points generalizing s with
  | nil => simp [plot, paint, anyInRange]
  | cons q points ih =>
    have hstep : plot (q :: points) on s = plot points on (setPixel q.1 q.2 on s) := rfl
    rw [hstep]
    by_cases h : inRange s.cfg q.1 q.2
    · rw [setPixel_open h ho, ih (by exact ho), paint_cons, anyInRange_cons, if_pos h, decide_eq_true h]
      simp
    · rw [setPixel_off h, ih ho, paint_cons, anyInRange_cons, if_neg h, decide_eq_false h]
      simp

/-! ## Opening and closing a scope -/

theorem beginScope_idle {s : State} (h : s.batchDepth = 0) :
    beginScope s = { s with backBuffer := s.buffer, batchDepth := 1 } := if_pos h

theorem beginScope_open {s : State} (h : scopeOpen s) :
    beginScope s = { s with batchDepth := if s.batchDepth < maxDepth then s.batchDepth + 1 else s.batchDepth } := by
  unfold beginScope
  rw [if_neg h]
  split <;> rfl

theorem beginScope_scopeOpen (s : State) : scopeOpen (beginScope s) := by
  by_cases h : s.batchDepth = 0
  · rw [beginScope_idle h]; simp
  · rw [beginScope_open h]
    show (if s.batchDepth < maxDepth then s.batchDepth + 1 else s.batchDepth) ≠ 0
    split
    · rename_i hlt
      simp only [maxDepth] at hlt
      bv_omega
    · exact h

theorem endScope_closed {s : State} (h : s.batchDepth = 0) : endScope s = s := if_pos h

theorem endScope_inner {s : State} (h : scopeOpen s) (h1 : s.batchDepth ≠ 1) :
    endScope s = { s with batchDepth := s.batchDepth - 1 } := by
  unfold endScope
  rw [if_neg h, if_neg h1]

theorem endScope_outermost {s : State} (h : s.batchDepth = 1) :
    endScope s = commitScope { s with batchDepth := 0 } := by
  unfold endScope
  rw [if_neg (by simp [h]), if_pos h]

/-- The depth at which a procedure called in an open scope leaves it: as before, except at saturation (R255). -/
def depthAfter (d : Byte) : Byte := if d = maxDepth then 254 else d

theorem depthAfter_toNat (d : Byte) : (depthAfter d).toNat = min d.toNat 254 := by
  unfold depthAfter maxDepth
  split
  · simp_all
  · rw [min_eq_left]; bv_omega

theorem depthAfter_ne_zero {d : Byte} (h : d ≠ 0) : depthAfter d ≠ 0 := by
  unfold depthAfter
  split <;> simp_all

/-- A procedure in an open scope, given what its body does: no commit. -/
theorem inScope_open {body : State → State} {s : State} (ho : scopeOpen s)
    (hb : (body (beginScope s)).batchDepth = (beginScope s).batchDepth) :
    inScope body s = { body (beginScope s) with batchDepth := depthAfter s.batchDepth } := by
  have ho' : s.batchDepth ≠ 0 := ho
  have hd : (beginScope s).batchDepth =
      if s.batchDepth < maxDepth then s.batchDepth + 1 else s.batchDepth := by rw [beginScope_open ho]
  unfold inScope
  rw [endScope_inner]
  · congr 1
    rw [hb, hd]
    unfold depthAfter maxDepth
    split <;> split <;> simp_all
    all_goals bv_omega
  · show (body (beginScope s)).batchDepth ≠ 0
    rw [hb]; exact beginScope_scopeOpen s
  · rw [hb, hd]
    unfold maxDepth
    split <;> bv_omega

/-- A procedure with no scope open, given what its body does: one commit. -/
theorem inScope_idle {body : State → State} {s : State} (h : s.batchDepth = 0)
    (hb : (body { s with backBuffer := s.buffer, batchDepth := 1 }).batchDepth = 1) :
    inScope body s = commitScope { body { s with backBuffer := s.buffer, batchDepth := 1 } with batchDepth := 0 } := by
  unfold inScope
  rw [beginScope_idle h, endScope_outermost hb]

/-- Drawing points in an open scope. -/
theorem drawPoints_open (points : List Point) (on : Bool) {s : State} (ho : scopeOpen s) :
    drawPoints points on s = { s with
      backBuffer := paint s.cfg points on s.backBuffer
      dirty := s.dirty || anyInRange s.cfg points
      batchDepth := depthAfter s.batchDepth } := by
  have hp := plot_open points on (beginScope_scopeOpen s)
  unfold drawPoints
  rw [inScope_open ho (by rw [hp]), hp, beginScope_open ho]

/-- Drawing points with no scope open. -/
theorem drawPoints_idle (points : List Point) (on : Bool) {s : State} (h : s.batchDepth = 0) :
    drawPoints points on s = commitScope { s with
      backBuffer := paint s.cfg points on s.buffer
      dirty := s.dirty || anyInRange s.cfg points
      batchDepth := 0 } := by
  have hp := plot_open points on (s := { s with backBuffer := s.buffer, batchDepth := 1 }) (by simp)
  unfold drawPoints
  rw [inScope_idle h (by rw [hp]), hp]

/-- Overwriting the back buffer in an open scope. -/
theorem overwriteBack_open (f : State → Nat → Byte) {s : State} (ho : scopeOpen s) :
    overwriteBack f s = { s with
      backBuffer := Memory.tabulate s.cfg.nbytes (f (beginScope s))
      dirty := true
      batchDepth := depthAfter s.batchDepth } := by
  unfold overwriteBack
  rw [inScope_open ho rfl, beginScope_open ho]

/-- Overwriting the back buffer with no scope open. -/
theorem overwriteBack_idle (f : State → Nat → Byte) {s : State} (h : s.batchDepth = 0) :
    overwriteBack f s = commitScope { s with
      backBuffer := Memory.tabulate s.cfg.nbytes (f { s with backBuffer := s.buffer, batchDepth := 1 })
      dirty := true
      batchDepth := 0 } := by
  unfold overwriteBack
  rw [inScope_idle h rfl]

/-! ## Flush and commit -/

/-- Everything a flush attempt can do (R128). -/
theorem flushAttempt_cases (s : State) :
    (needsUpdate s = true ∧ throttled s = false ∧ flushAttempt s =
      (true, { s with lastUpdateTime := s.now, events := s.events ++ [⟨s.now, s.buffer⟩] })) ∨
    ((needsUpdate s = false ∨ throttled s = true) ∧ flushAttempt s = (false, s)) := by
  unfold flushAttempt
  by_cases hn : needsUpdate s = true <;> by_cases ht : throttled s = true <;> simp_all

/-- Everything the commit at an outermost close can do (R125, R127). -/
theorem commitScope_cases (s : State) :
    (needsUpdate s = true ∧ throttled s = false ∧ commitScope s = { s with
      buffer := s.backBuffer, backBuffer := s.buffer, dirty := false, forceUpdate := false
      lastUpdateTime := s.now, events := s.events ++ [⟨s.now, s.backBuffer⟩] }) ∨
    (needsUpdate s = true ∧ throttled s = true ∧ commitScope s = { s with
      buffer := s.backBuffer, backBuffer := s.buffer, dirty := false, forceUpdate := false }) ∨
    (needsUpdate s = false ∧ commitScope s = { s with dirty := false, forceUpdate := false }) := by
  unfold commitScope
  by_cases hn : needsUpdate s = true
  · rw [if_pos hn]
    rcases flushAttempt_cases (swapBuffers s) with ⟨-, ht, he⟩ | ⟨ht, he⟩
    · exact .inl ⟨hn, ht, by rw [he]; rfl⟩
    · refine .inr (.inl ⟨hn, ?_, by rw [he]; rfl⟩)
      simpa [hn] using ht
  · rw [if_neg hn]
    exact .inr (.inr ⟨by simpa using hn, rfl⟩)

/-- Everything the flush attempt after a direct write can do (R120). -/
theorem flushDirect_cases (s : State) :
    (needsUpdate s = true ∧ throttled s = false ∧ flushDirect s = { s with
      dirty := false, forceUpdate := false
      lastUpdateTime := s.now, events := s.events ++ [⟨s.now, s.buffer⟩] }) ∨
    ((needsUpdate s = false ∨ throttled s = true) ∧ flushDirect s = s) := by
  unfold flushDirect
  rcases flushAttempt_cases s with ⟨hn, ht, he⟩ | ⟨h, he⟩
  · exact .inl ⟨hn, ht, by rw [he]; rfl⟩
  · exact .inr ⟨h, by rw [he]; rfl⟩

/-- A commit, seen from the state `s` the command started in: `u` is that state with the back buffer holding `back`
and the write recorded. -/
theorem commitScope_oneCommit {s : State} {back : Memory} {wrote : Bool} {written : Prop} {front : Memory → Prop}
    (hw : wrote = true ↔ written) (hf : front back)
    (hclean : wrote = false → back = s.buffer) :
    OneCommit written front s
      (commitScope { s with backBuffer := back, dirty := s.dirty || wrote, batchDepth := 0 }) := by
  have hneed : needsUpdate { s with backBuffer := back, dirty := s.dirty || wrote, batchDepth := 0 } = true ↔
      written ∨ needsUpdate s = true := by
    rw [← hw]
    cases hd : s.dirty <;> cases hq : s.forceUpdate <;> cases wrote <;> simp [needsUpdate, hd, hq]
  rcases commitScope_cases { s with backBuffer := back, dirty := s.dirty || wrote, batchDepth := 0 } with
    ⟨hn, ht, he⟩ | ⟨hn, ht, he⟩ | ⟨hn, he⟩
  · rw [he]
    exact ⟨hf, rfl, rfl, rfl, rfl, fun _ => ⟨rfl, rfl⟩, fun h => absurd ⟨hneed.1 hn, ht⟩ h⟩
  · rw [he]
    refine ⟨hf, rfl, rfl, rfl, rfl, fun h => ?_, fun _ => ⟨rfl, rfl⟩⟩
    exact absurd (ht.symm.trans h.2) (by simp)
  · have hno : ¬ (written ∨ needsUpdate s = true) := fun h => by rw [hneed.2 h] at hn; cases hn
    have hb : back = s.buffer := hclean (by
      cases hq : wrote
      · rfl
      · exact absurd (Or.inl (hw.1 hq)) hno)
    rw [he]
    subst hb
    exact ⟨hf, rfl, rfl, rfl, rfl, fun h => absurd h.1 hno, fun _ => ⟨rfl, rfl⟩⟩

theorem commitScope_control (s : State) : SameControl s (commitScope s) := by
  rcases commitScope_cases s with ⟨-, -, he⟩ | ⟨-, -, he⟩ | ⟨-, he⟩ <;> rw [he] <;> constructor <;> rfl

theorem paint_of_none {p : Params} {points : List Point} (h : anyInRange p points = false) (on : Bool)
    (m : Memory) : paint p points on m = m := by
  induction points generalizing m with
  | nil => rfl
  | cons q points ih =>
    simp only [anyInRange, List.any_cons, Bool.or_eq_false_iff, decide_eq_false_iff_not] at h
    simp only [paint, List.foldl_cons, if_neg h.1]
    exact ih h.2 m

end Sys2Proof.Machine
end

