-- ==== Sys2Proof/Laws/PerInstr.lean ====
section
/-! SUPPORT. One lemma per command: its encoding has the length that R95 computes from its header and W2. -/

namespace Sys2Proof.Laws.EncodedLength

/-- The encoding of a well-formed command is as long as R95 says a command with its header and W2 is. -/
def Statement (i : Instr) : Prop := i.wf = true → commandLength (encode i) = some (encode i).length

theorem beginUpdate : Statement .beginUpdate := fun _ => rfl
theorem endUpdate : Statement .endUpdate := fun _ => rfl
theorem setForceUpdate (flag : Bool) : Statement (.setForceUpdate flag) := fun _ => by cases flag <;> rfl
theorem needsUpdate : Statement .needsUpdate := fun _ => rfl
theorem setThrottle (flag : Bool) : Statement (.setThrottle flag) := fun _ => by cases flag <;> rfl
theorem invert (flag : Bool) : Statement (.invert flag) := fun _ => by cases flag <;> rfl
theorem clear : Statement .clear := fun _ => rfl
theorem fill : Statement .fill := fun _ => rfl

theorem setRotation (r : Nat) : Statement (.setRotation r) := fun _ => by
  simp [encode, commandLength, opcodePL, opcodeNW]

theorem setTextSize (size : Nat) : Statement (.setTextSize size) := fun _ => by
  simp [encode, commandLength, opcodePL, opcodeNW]

theorem write (c : Nat) : Statement (.write c) := fun _ => by
  simp [encode, commandLength, opcodePL, opcodeNW]

theorem setPixel (x y : Int) (on : Bool) : Statement (.setPixel x y on) := fun _ => by
  simp [encode, commandLength, opcodePL, opcodeNW]

theorem getPixel (x y : Int) : Statement (.getPixel x y) := fun _ => by
  simp [encode, commandLength, opcodePL, opcodeNW]

theorem setCursor (x y : Int) : Statement (.setCursor x y) := fun _ => by
  simp [encode, commandLength, opcodePL, opcodeNW]

theorem drawChar (x y : Int) (c : Nat) (color : Bool) (size : Nat) : Statement (.drawChar x y c color size) :=
  fun _ => by simp [encode, commandLength, opcodePL, opcodeNW]

theorem drawBox (x y w h : Int) (on : Bool) : Statement (.drawBox x y w h on) := fun _ => by
  simp [encode, commandLength, opcodePL, opcodeNW]

theorem drawRect (x y w h : Int) : Statement (.drawRect x y w h) := fun _ => by
  simp [encode, commandLength, opcodePL, opcodeNW]

theorem drawLine (x0 y0 x1 y1 : Int) : Statement (.drawLine x0 y0 x1 y1) := fun _ => by
  simp [encode, commandLength, opcodePL, opcodeNW]

theorem drawHLine (x y w : Int) : Statement (.drawHLine x y w) := fun _ => by
  simp [encode, commandLength, opcodePL, opcodeNW]

theorem drawVLine (x y h : Int) : Statement (.drawVLine x y h) := fun _ => by
  simp [encode, commandLength, opcodePL, opcodeNW]

theorem drawCircle (x0 y0 r : Int) : Statement (.drawCircle x0 y0 r) := fun _ => by
  simp [encode, commandLength, opcodePL, opcodeNW]

theorem fillCircle (x0 y0 r : Int) : Statement (.fillCircle x0 y0 r) := fun _ => by
  simp [encode, commandLength, opcodePL, opcodeNW]

theorem drawTriangle (x0 y0 x1 y1 x2 y2 : Int) : Statement (.drawTriangle x0 y0 x1 y1 x2 y2) := fun _ => by
  simp [encode, commandLength, opcodePL, opcodeNW]

theorem fillTriangle (x0 y0 x1 y1 x2 y2 : Int) : Statement (.fillTriangle x0 y0 x1 y1 x2 y2) := fun _ => by
  simp [encode, commandLength, opcodePL, opcodeNW]

theorem drawXbm (x y w h : Int) (bitmap : List Byte) : Statement (.drawXbm x y w h bitmap) := fun hwf => by
  obtain ⟨-, -, hw, hh, hb⟩ := of_decide_eq_true hwf
  simp [encode, commandLength, opcodePL, opcodeNW, payloadWords, operandLo_makePair hw, operandHi_makePair hh,
    packPayload_length, hb]
  omega

end Sys2Proof.Laws.EncodedLength
end

