-- ==== Sys2Proof/Laws/Points.lean ====
section
/-! SUPPORT. Which pixels the raster procedures offer to `SetPixel`: membership in their lists of points. -/

namespace Sys2Proof.Machine

@[simp] theorem mem_intRange {lo hi v : Int} : v ∈ intRange lo hi ↔ lo ≤ v ∧ v ≤ hi := by
  simp only [intRange, List.mem_map, List.mem_range]
  constructor
  · rintro ⟨k, hk, rfl⟩; omega
  · intro h; exact ⟨(v - lo).toNat, by omega, by omega⟩

theorem mem_boxPoints {p : Params} {x y w h a b : Int} :
    (a, b) ∈ boxPoints p x y w h ↔
      max 0 x ≤ a ∧ a < min (x + w) p.width ∧ max 0 y ≤ b ∧ b < min (y + h) p.height := by
  simp only [boxPoints, List.mem_flatMap, List.mem_map, mem_intRange, Prod.mk.injEq]
  constructor
  · rintro ⟨j, hj, i, hi, rfl, rfl⟩; omega
  · intro h; exact ⟨b, by omega, a, by omega, rfl, rfl⟩

theorem mem_rectPoints {x y w h a b : Int} :
    (a, b) ∈ rectPoints x y w h ↔ 0 < w ∧ 0 < h ∧ x ≤ a ∧ a < x + w ∧ y ≤ b ∧ b < y + h ∧
      (a = x ∨ a = x + w - 1 ∨ b = y ∨ b = y + h - 1) := by
  unfold rectPoints
  split
  · simp only [List.mem_append, List.mem_flatMap, mem_intRange, List.mem_cons, Prod.mk.injEq,
      List.not_mem_nil, or_false]
    constructor
    · rintro (⟨i, hi, h | h⟩ | ⟨j, hj, h | h⟩) <;> omega
    · intro hab
      by_cases hb : b = y ∨ b = y + h - 1
      · exact .inl ⟨a, by omega, by omega⟩
      · exact .inr ⟨b, by omega, by omega⟩
  · simp; omega

theorem mem_hlinePoints {x y w a b : Int} : (a, b) ∈ hlinePoints x y w ↔ x ≤ a ∧ a < x + w ∧ b = y := by
  simp only [hlinePoints, List.mem_map, mem_intRange, Prod.mk.injEq]
  constructor
  · rintro ⟨i, hi, rfl, rfl⟩; omega
  · intro h; exact ⟨a - x, by omega, by omega, by omega⟩

theorem mem_vlinePoints {x y h a b : Int} :
    (a, b) ∈ vlinePoints x y h ↔ y ≤ b ∧ b < y + h ∧ a = x := by
  simp only [vlinePoints, List.mem_map, mem_intRange, Prod.mk.injEq]
  constructor
  · rintro ⟨i, hi, rfl, rfl⟩; omega
  · intro h; exact ⟨b - y, by omega, by omega, by omega⟩

theorem mem_discPoints {x0 y0 r a b : Int} :
    (a, b) ∈ discPoints x0 y0 r ↔
      0 ≤ r ∧ (a - x0) * (a - x0) + (b - y0) * (b - y0) ≤ r * r := by
  simp only [discPoints, List.mem_flatMap, List.mem_map, List.mem_filter, mem_intRange, Prod.mk.injEq,
    decide_eq_true_eq]
  constructor
  · rintro ⟨dy, hdy, dx, ⟨hdx, h⟩, rfl, rfl⟩
    refine ⟨by omega, ?_⟩
    simpa [add_sub_cancel_left] using h
  · rintro ⟨hr, h⟩
    have hb : ∀ u v : Int, u * u + v * v ≤ r * r → -r ≤ v ∧ v ≤ r := fun u v huv => by
      have := abs_le_of_sq_le_sq' (a := v) (b := r) (by nlinarith [mul_self_nonneg u]) hr
      exact this
    exact ⟨b - y0, hb _ _ h, a - x0, ⟨hb (b - y0) _ (by linarith), h⟩, by ring, by ring⟩

/-- The pixels of a row of `FillTriangle` (R173). -/
def runPoints (q : Run) : List Point := hlinePoints q.1 q.2.1 q.2.2

theorem mem_rowRun {xa xb y a b : Int} :
    (a, b) ∈ runPoints (rowRun xa xb y) ↔ min xa xb ≤ a ∧ a ≤ max xa xb ∧ b = y := by
  simp only [runPoints, mem_hlinePoints, rowRun]
  omega

theorem mem_passRuns {u v w z : Point} {a b : Int} :
    (a, b) ∈ (passRuns u v w z).flatMap runPoints ↔ inPass u v w z a b := by
  unfold passRuns inPass
  split
  · simp only [List.mem_flatMap, List.mem_map, mem_intRange]
    constructor
    · rintro ⟨q, ⟨y, hy, rfl⟩, h⟩
      obtain ⟨h1, h2, rfl⟩ := mem_rowRun.1 h
      exact ⟨‹_›, hy.1, hy.2, by omega⟩
    · rintro ⟨-, h1, h2, h3⟩
      exact ⟨_, ⟨b, ⟨h1, h2⟩, rfl⟩, mem_rowRun.2 (by omega)⟩
  · simp [‹¬ _›]

/-- The pixels of the rows are those of the two passes (R173). -/
theorem mem_triangleRuns {v0 v1 v2 : Point} {a b : Int} :
    (a, b) ∈ (triangleRuns v0 v1 v2).flatMap runPoints ↔
      inPass (sortVertices v0 v1 v2).1 (sortVertices v0 v1 v2).2.1
          (sortVertices v0 v1 v2).1 (sortVertices v0 v1 v2).2.2 a b ∨
        inPass (sortVertices v0 v1 v2).2.1 (sortVertices v0 v1 v2).2.2
          (sortVertices v0 v1 v2).1 (sortVertices v0 v1 v2).2.2 a b := by
  simp only [triangleRuns, List.flatMap_append, List.mem_append, mem_passRuns]

theorem exists_passRuns {u v w z : Point} : (∃ q, q ∈ passRuns u v w z) ↔ u.2 < v.2 := by
  unfold passRuns
  split
  · exact iff_of_true ⟨_, List.mem_map_of_mem (mem_intRange.2 ⟨le_refl u.2, by omega⟩)⟩ ‹_›
  · exact iff_of_false (by simp) ‹_›

/-- `FillTriangle` draws a row exactly if its vertices are not all on one row (R173). -/
theorem exists_triangleRuns {v0 v1 v2 : Point} :
    (∃ q, q ∈ triangleRuns v0 v1 v2) ↔ ¬ (v0.2 = v1.2 ∧ v1.2 = v2.2) := by
  simp only [triangleRuns, List.mem_append, exists_or, exists_passRuns, sortVertices, orderByY]
  split_ifs <;> dsimp only at * <;> omega

theorem mem_xbmPoints {x y w h a b : Int} {bitmap : List Byte} :
    (a, b) ∈ xbmPoints x y w h bitmap ↔ ∃ i j : Nat, (i : Int) < w ∧ (j : Int) < h ∧
      bitmapBit bitmap (bitmapStride w) i j = true ∧ a = x + i ∧ b = y + j := by
  unfold xbmPoints
  split
  · simp only [List.mem_flatMap, List.mem_map, List.mem_filter, List.mem_range, Prod.mk.injEq]
    constructor
    · rintro ⟨j, hj, i, ⟨hi, hb⟩, rfl, rfl⟩
      exact ⟨i, j, by omega, by omega, hb, rfl, rfl⟩
    · rintro ⟨i, j, hi, hj, hb, rfl, rfl⟩
      exact ⟨j, by omega, i, ⟨by omega, hb⟩, rfl, rfl⟩
  · simp only [List.not_mem_nil, false_iff, not_exists, not_and]
    intro i j hi hj
    omega

theorem mem_glyphPixels {p : Params} {c col row : Nat} :
    (col, row) ∈ glyphPixels p c ↔ col < 5 ∧ row < 8 ∧ glyphBit p c col row = true := by
  simp only [glyphPixels, List.mem_filter, List.mem_flatMap, List.mem_map, List.mem_range, Prod.mk.injEq]
  constructor
  · rintro ⟨⟨i, hi, j, hj, rfl, rfl⟩, h⟩; exact ⟨hi, hj, h⟩
  · rintro ⟨hi, hj, h⟩; exact ⟨⟨col, hi, row, hj, rfl, rfl⟩, h⟩

/-! ## Lines -/

/-- The points of the line loop: after `j` steps of the major coordinate the error term has wrapped
`(j*dy + (dx - 1 - err)) / dx` times, one step of the minor coordinate each (R164). -/
theorem mem_lineLoop {dx dy : Int} (hx : 0 < dx) (h0 : 0 ≤ dy) (hd : dy ≤ dx) (step : Int) (n : Nat)
    (a b err : Int) (he0 : 0 ≤ err) (he1 : err < dx) (u v : Int) :
    (u, v) ∈ lineLoop dx dy step n a b err ↔
      ∃ j : Nat, j < n ∧ u = a + j ∧ v = b + step * ((j * dy + (dx - 1 - err)) / dx) := by
  induction n generalizing a b err with
  | zero => simp [lineLoop]
  | succ n ih =>
    have hzero : (dx - 1 - err) / dx = 0 := Int.ediv_eq_zero_of_lt (by omega) (by omega)
    have key : ∀ (b' err' : Int), 0 ≤ err' → err' < dx →
        (∀ j : Nat, b' + step * ((j * dy + (dx - 1 - err')) / dx) =
          b + step * (((j + 1 : Nat) * dy + (dx - 1 - err)) / dx)) →
        ((u, v) ∈ (a, b) :: lineLoop dx dy step n (a + 1) b' err' ↔
          ∃ j : Nat, j < n + 1 ∧ u = a + j ∧ v = b + step * ((j * dy + (dx - 1 - err)) / dx)) := by
      intro b' err' h1 h2 hstep
      rw [List.mem_cons, ih (a + 1) b' err' h1 h2, Prod.mk.injEq]
      constructor
      · rintro (⟨rfl, rfl⟩ | ⟨j, hj, hu, hv⟩)
        · exact ⟨0, by omega, by simp, by simp [hzero]⟩
        · exact ⟨j + 1, by omega, by push_cast; omega, by rw [hv, hstep]⟩
      · rintro ⟨j, hj, hu, hv⟩
        cases j with
        | zero => left; simpa [hzero] using And.intro hu hv
        | succ j => right; exact ⟨j, by omega, by push_cast at hu; omega, by rw [hv, hstep]⟩
    unfold lineLoop
    split
    · refine key _ _ (by omega) (by omega) fun j => ?_
      have : ((j + 1 : Nat) * dy + (dx - 1 - err)) = (j * dy + (dx - 1 - (err - dy + dx))) + 1 * dx := by
        push_cast; ring
      rw [this, Int.add_mul_ediv_right _ _ (by omega)]
      ring
    · refine key _ _ (by omega) (by omega) fun j => ?_
      have : ((j + 1 : Nat) * dy + (dx - 1 - err)) = (j * dy + (dx - 1 - (err - dy))) := by
        push_cast; ring
      rw [this]

/-- The points of a line whose endpoints are ordered along the major axis. -/
theorem mem_lineSteps {a0 b0 a1 b1 : Int} (ha : a0 ≤ a1) (hs : ((b1 - b0).natAbs : Int) ≤ a1 - a0) (u v : Int) :
    (u, v) ∈ lineSteps a0 b0 a1 b1 ↔ ∃ j : Nat, (j : Int) ≤ a1 - a0 ∧ u = a0 + j ∧
      v = b0 + (if b0 < b1 then 1 else -1) *
        ((j * (b1 - b0).natAbs + (a1 - a0 - 1) / 2) / (a1 - a0)) := by
  unfold lineSteps
  by_cases h : a0 = a1
  · subst h
    have hb : b0 = b1 := by omega
    subst hb
    simp only [sub_self, Int.toNat_zero, lineLoop, Int.natAbs_zero, List.mem_cons, Prod.mk.injEq]
    constructor
    · intro h
      exact ⟨0, by simp, by simpa using h.resolve_right (by split <;> simp) |>.1, by
        simpa using h.resolve_right (by split <;> simp) |>.2⟩
    · rintro ⟨j, hj, hu, hv⟩
      left
      have : j = 0 := by omega
      subst this
      simpa using And.intro hu hv
  · rw [mem_lineLoop (by omega) (by omega) hs _ _ _ _ _ (by omega) (by omega)]
    have : a1 - a0 - 1 - (a1 - a0) / 2 = (a1 - a0 - 1) / 2 := by omega
    rw [this]
    constructor
    · rintro ⟨j, hj, hu, hv⟩; exact ⟨j, by omega, hu, hv⟩
    · rintro ⟨j, hj, hu, hv⟩; exact ⟨j, by omega, hu, hv⟩

/-- The stepping of a line plots one point for each value of the major coordinate. -/
theorem lineLoop_length (dx dy step : Int) (n : Nat) (a b err : Int) :
    (lineLoop dx dy step n a b err).length = n := by
  induction n generalizing a b err with
  | zero => rfl
  | succ n ih => unfold lineLoop; split <;> simp [ih]

/-! ## Circles -/

/-- More fuel than turns changes nothing: the loop of `Circle` has ended by then (R168, R174). -/
theorem circleLoop_fuel (x0 y0 : Int) (n m : Nat) (f ddx ddy x y : Int) (hn : y - x ≤ n) :
    circleLoop x0 y0 (n + m) f ddx ddy x y = circleLoop x0 y0 n f ddx ddy x y := by
  induction n generalizing f ddx ddy x y with
  | zero =>
    cases m with
    | zero => rfl
    | succ m =>
      have h : ¬ x < y := by omega
      simp [circleLoop, h]
  | succ n ih =>
    rw [show n + 1 + m = (n + m) + 1 by omega]
    unfold circleLoop
    split
    · split
      · rw [ih _ _ _ _ _ (by omega)]
      · rw [ih _ _ _ _ _ (by omega)]
    · rfl

/-- At one `u` there is one such `v`. -/
theorem nearCircle_unique {r u v w : Int} (hv : 0 ≤ v) (hw : 0 ≤ w) (h : nearCircle r u v) (k : nearCircle r u w) :
    v = w := by
  obtain ⟨h1, h2⟩ := h
  obtain ⟨k1, k2⟩ := k
  rcases lt_trichotomy v w with hlt | he | hlt
  · nlinarith
  · exact he
  · nlinarith

/-- The eight reflections of a point are the points at its two distances. -/
theorem mem_octantPoints {x0 y0 u v a b : Int} (hu : 0 ≤ u) (hv : 0 ≤ v) :
    (a, b) ∈ octantPoints x0 y0 u v ↔
      min u v = min (a - x0).natAbs (b - y0).natAbs ∧ max u v = max (a - x0).natAbs (b - y0).natAbs := by
  simp only [octantPoints, List.mem_cons, Prod.mk.injEq, List.not_mem_nil, or_false]
  omega

/-- The loop of `Circle` is over once `y ≤ x`. -/
theorem circleLoop_done {x0 y0 f ddx ddy x y : Int} (n : Nat) (h : y ≤ x) :
    circleLoop x0 y0 n f ddx ddy x y = [] := by
  cases n with
  | zero => rfl
  | succ n => exact if_neg (by omega)

/-- The points near the circle from column `x` on are those of column `x` and those from column `x + 1` on. -/
theorem nearCircle_columns {r x0 y0 a b x y : Int} (hx : 0 ≤ x) (hxy : x ≤ y) (hc : nearCircle r x y) :
    (∃ u v, x ≤ u ∧ u ≤ v ∧ nearCircle r u v ∧ (a, b) ∈ octantPoints x0 y0 u v) ↔
      (a, b) ∈ octantPoints x0 y0 x y ∨
        ∃ u v, x + 1 ≤ u ∧ u ≤ v ∧ nearCircle r u v ∧ (a, b) ∈ octantPoints x0 y0 u v := by
  constructor
  · rintro ⟨u, v, h1, h2, h3, h4⟩
    by_cases hu : u = x
    · subst hu
      rw [nearCircle_unique (by omega) (by omega) hc h3]
      exact .inl h4
    · exact .inr ⟨u, v, by omega, h2, h3, h4⟩
  · rintro (h | ⟨u, v, h1, h2, h3, h4⟩)
    · exact ⟨x, y, le_refl x, hxy, hc, h⟩
    · exact ⟨u, v, by omega, h2, h3, h4⟩

/-- Past a column where the row just above the diagonal is already outside, no point is near the circle. -/
theorem not_nearCircle {r x u v : Int} (hx : 0 ≤ x) (hr : r * r ≤ x * x + x * x + x) (hu : x + 1 ≤ u) (huv : u ≤ v) :
    ¬ nearCircle r u v := fun ⟨h, _⟩ => by nlinarith

/-- From a point near the circle on, the loop of `Circle` gives every point near the circle up to the diagonal. -/
theorem mem_circleLoop {r x0 y0 a b : Int} (n : Nat) (x y : Int) (hx : 0 ≤ x) (hxy : x ≤ y) (hn : y - x ≤ n)
    (hc : nearCircle r x y) :
    (a, b) ∈ octantPoints x0 y0 x y ++
        circleLoop x0 y0 n ((x + 1) * (x + 1) + y * y - y - r * r) (2 * x + 1) (-2 * y) x y ↔
      ∃ u v, x ≤ u ∧ u ≤ v ∧ nearCircle r u v ∧ (a, b) ∈ octantPoints x0 y0 u v := by
  -- the loop has ended, or its next point is a mirror image: nothing is near the circle past this column
  have ended : ∀ {x y : Int} {l : List Point}, 0 ≤ x → x ≤ y → nearCircle r x y →
      ((a, b) ∈ l → (a, b) ∈ octantPoints x0 y0 x y) → (∀ u v, x + 1 ≤ u → u ≤ v → ¬ nearCircle r u v) →
      ((a, b) ∈ octantPoints x0 y0 x y ++ l ↔
        ∃ u v, x ≤ u ∧ u ≤ v ∧ nearCircle r u v ∧ (a, b) ∈ octantPoints x0 y0 u v) := fun hx hxy hc hl hno => by
    rw [nearCircle_columns hx hxy hc, List.mem_append]
    exact ⟨fun h => .inl (h.elim id hl), fun h => .inl (h.resolve_right fun ⟨u, v, h1, h2, h3, _⟩ => hno u v h1 h2 h3)⟩
  have diagonal : ∀ {m : Nat} {x y f ddx ddy : Int}, 0 ≤ x → x = y → nearCircle r x y →
      ((a, b) ∈ octantPoints x0 y0 x y ++ circleLoop x0 y0 m f ddx ddy x y ↔
        ∃ u v, x ≤ u ∧ u ≤ v ∧ nearCircle r u v ∧ (a, b) ∈ octantPoints x0 y0 u v) := fun hx he hc => by
    subst he
    exact ended hx le_rfl hc (by rw [circleLoop_done _ le_rfl]; exact (nomatch ·))
      fun u v => not_nearCircle hx hc.2
  induction n generalizing x y with
  | zero => exact diagonal hx (by omega) hc
  | succ n ih =>
    by_cases hlt : x < y
    · have ⟨hc1, hc2⟩ := hc
      rw [circleLoop, if_pos hlt]
      split
      · rename_i hf
        by_cases hd : x + 1 ≤ y - 1
        · have key := ih (x + 1) (y - 1) (by omega) hd (by omega) ⟨by nlinarith, by nlinarith⟩
          rw [nearCircle_columns hx hxy hc, List.mem_append]
          convert or_congr Iff.rfl key using 5 <;> ring
        · have he : y = x + 1 := by omega
          subst he
          refine ended hx hxy hc (fun h => ?_) fun u v h1 h2 => fun h3 => ?_
          · rw [circleLoop_done _ (by omega), List.append_nil, mem_octantPoints (by omega) (by omega)] at h
            rw [mem_octantPoints (by omega) (by omega)]
            omega
          · have := h3.1
            nlinarith
      · rename_i hf
        have key := ih (x + 1) y (by omega) (by omega) (by omega) ⟨by nlinarith, by nlinarith⟩
        rw [nearCircle_columns hx hxy hc, List.mem_append]
        convert or_congr Iff.rfl key using 5 <;> ring
    · exact diagonal hx (by omega) hc

/-- The points of `Circle` are those of `onCircle` (R168). -/
theorem mem_circlePoints {x0 y0 r a b : Int} : (a, b) ∈ circlePoints x0 y0 r ↔ onCircle x0 y0 r a b := by
  unfold circlePoints onCircle
  split
  · rcases Int.lt_or_eq_of_le ‹0 ≤ r› with hr | rfl
    · have h0 : nearCircle r 0 r := ⟨by nlinarith, by nlinarith⟩
      have key := mem_circleLoop (x0 := x0) (y0 := y0) (a := a) (b := b) r.toNat 0 r le_rfl hr.le (by omega) h0
      have hax : (a, b) ∈ [(x0, y0 + r), (x0, y0 - r), (x0 + r, y0), (x0 - r, y0)] ↔
          (a, b) ∈ octantPoints x0 y0 0 r := by
        simp only [octantPoints, List.mem_cons, Prod.mk.injEq, List.not_mem_nil, or_false]
        omega
      rw [show (0 + 1) * (0 + 1) + r * r - r - r * r = 1 - r by ring, List.mem_append, ← hax, ← List.mem_append] at key
      refine key.trans ⟨?_, ?_⟩
      · rintro ⟨u, v, h1, h2, h3, h4⟩
        rw [mem_octantPoints h1 (by omega)] at h4
        refine .inr ⟨hr, ?_⟩
        rw [← h4.1, ← h4.2, min_eq_left h2, max_eq_right h2]
        exact h3
      · rintro (⟨h, -⟩ | ⟨-, h⟩)
        · omega
        · refine ⟨_, _, ?_, ?_, h, ?_⟩
          · omega
          · omega
          · rw [mem_octantPoints (by omega) (by omega)]
            omega
    · simp [circleLoop]
  · constructor
    · exact (nomatch ·)
    · rintro (⟨rfl, -⟩ | ⟨h, -⟩) <;> omega

end Sys2Proof.Machine
end

