-- ==== Sys2Proof/Laws/Scopes.lean ====
section
/-! SUPPORT. Procedures made of several drawing procedures: what a body does inside an open scope, how such bodies
compose, and the effect of one as a whole. -/

namespace Sys2Proof.Machine

/-- In an open scope `body` paints `points` into the back buffer and does nothing else, but that a body that opens
scopes of its own (`nests`) takes one from a saturated depth (R255). -/
def DrawsOpen (p : Params) (points : List Point) (on : Bool) (nests : Prop) (body : State → State) : Prop :=
  ∀ s : State, s.cfg = p → scopeOpen s → ∃ d : Byte,
    body s = { s with
      backBuffer := paint p points on s.backBuffer
      dirty := s.dirty || anyInRange p points
      batchDepth := d } ∧
    (¬ nests → d = s.batchDepth) ∧ (nests → d.toNat = min s.batchDepth.toNat 254)

/-- The depth after such a body, in one formula: never below the smaller of the depth before and 254. -/
theorem drawsOpen_depth_le {nests : Prop} {e d : Byte} (h1 : ¬ nests → d = e) (h2 : nests → d.toNat = min e.toNat 254) :
    min e.toNat 254 ≤ d.toNat ∧ d.toNat ≤ e.toNat := by
  by_cases hn : nests
  · have := h2 hn; omega
  · rw [h1 hn]; omega

theorem depth_pos {s : State} (ho : scopeOpen s) : 0 < s.batchDepth.toNat :=
  Nat.pos_of_ne_zero fun hz => ho (BitVec.eq_of_toNat_eq (by simpa using hz))

/-- Doing nothing draws nothing. -/
theorem drawsOpen_id (p : Params) (on : Bool) : DrawsOpen p [] on False (fun s => s) := fun s _ _ =>
  ⟨s.batchDepth, by simp [paint, anyInRange], fun _ => rfl, fun h => h.elim⟩

/-- Plotting draws its points. -/
theorem drawsOpen_plot (p : Params) (points : List Point) (on : Bool) :
    DrawsOpen p points on False (plot points on) :=
  fun s hp ho => ⟨s.batchDepth, by rw [plot_open _ _ ho, hp], fun _ => rfl, fun h => h.elim⟩

/-- So does one `SetPixel`. -/
theorem drawsOpen_setPixel (p : Params) (x y : Int) (on : Bool) :
    DrawsOpen p [(x, y)] on False (setPixel x y on) :=
  drawsOpen_plot p [(x, y)] on

/-- So does a drawing procedure with a scope of its own. -/
theorem drawsOpen_drawPoints (p : Params) (points : List Point) (on : Bool) :
    DrawsOpen p points on True (drawPoints points on) := fun s hp ho =>
  ⟨depthAfter s.batchDepth, by rw [drawPoints_open _ _ ho, hp], fun h => absurd trivial h,
    fun _ => depthAfter_toNat _⟩

/-- A body nests exactly if an equivalent condition holds. -/
theorem DrawsOpen.congr {p : Params} {ps : List Point} {on : Bool} {n n' : Prop} {b : State → State}
    (hb : DrawsOpen p ps on n b) (h : n ↔ n') : DrawsOpen p ps on n' b := propext h ▸ hb

/-- One body after another draws the points of both. -/
theorem DrawsOpen.comp {p : Params} {ps qs : List Point} {on : Bool} {m n : Prop} {b c : State → State}
    (hb : DrawsOpen p ps on m b) (hc : DrawsOpen p qs on n c) :
    DrawsOpen p (ps ++ qs) on (m ∨ n) (fun s => c (b s)) := fun s hp ho => by
  obtain ⟨d, e, h1, h2⟩ := hb s hp ho
  have hd := drawsOpen_depth_le h1 h2
  have hpos := depth_pos ho
  show ∃ d', c (b s) = _ ∧ _
  rw [e]
  obtain ⟨d', e', k1, k2⟩ := hc { s with
    backBuffer := paint p ps on s.backBuffer, dirty := s.dirty || anyInRange p ps, batchDepth := d } hp
    (by show d ≠ 0; rintro rfl; simp at hd; omega)
  simp only at k1 k2
  refine ⟨d', ?_, fun h => ?_, fun h => ?_⟩
  · rw [e', paint_append, anyInRange_append, Bool.or_assoc]
  · rw [k1 fun hn => h (.inr hn), h1 fun hm => h (.inl hm)]
  · by_cases hn : n
    · have := k2 hn; omega
    · have := h2 (h.resolve_right hn)
      rw [k1 hn, this]

/-- A fold of bodies draws the points of each. -/
theorem drawsOpen_foldl {α : Type} {p : Params} {on : Bool} (points : α → List Point) (n : Prop)
    (b : α → State → State) (h : ∀ a, DrawsOpen p (points a) on n (b a)) (l : List α) :
    DrawsOpen p (l.flatMap points) on (n ∧ ∃ a, a ∈ l) (fun s => l.foldl (fun s a => b a s) s) := by
  induction l with
  | nil => exact (drawsOpen_id p on).congr (by simp)
  | cons a l ih =>
    rw [List.flatMap_cons]
    exact ((h a).comp ih).congr ⟨fun hn => ⟨hn.elim id And.left, a, List.mem_cons_self⟩, fun hn => .inl hn.1⟩

/-- A body in a scope of its own, called with a scope open: the same painting, no commit. -/
theorem inScope_cases_open {s : State} {points : List Point} {on : Bool} {nests : Prop} {body : State → State}
    (hb : DrawsOpen s.cfg points on nests body) (ho : scopeOpen s) : ∃ d : Byte,
    inScope body s = { s with
      backBuffer := paint s.cfg points on s.backBuffer
      dirty := s.dirty || anyInRange s.cfg points
      batchDepth := d } ∧ d ≠ 0 ∧
    (¬ nests → d.toNat = min s.batchDepth.toNat 254) ∧ (nests → d.toNat = min s.batchDepth.toNat 253) := by
  have hopen := beginScope_scopeOpen s
  have hpos := depth_pos ho
  have hlt := s.batchDepth.isLt
  have hdepth : (beginScope s).batchDepth.toNat = min (s.batchDepth.toNat + 1) 255 := by
    rw [beginScope_open ho]
    show (if s.batchDepth < maxDepth then s.batchDepth + 1 else s.batchDepth).toNat = _
    simp only [maxDepth, BitVec.lt_def]
    split
    · simp_all; omega
    · simp_all; omega
  have hcfg : (beginScope s).cfg = s.cfg := by rw [beginScope_open ho]
  obtain ⟨d, e, h1, h2⟩ := hb (beginScope s) hcfg hopen
  have hd := drawsOpen_depth_le h1 h2
  have hd2 : 2 ≤ d.toNat := by omega
  have hsub : (d - 1).toNat = d.toNat - 1 := by bv_omega
  refine ⟨d - 1, ?_, by bv_omega, fun hn => ?_, fun hn => ?_⟩
  · unfold inScope
    rw [endScope_inner (by rw [e]; show d ≠ 0; rintro rfl; simp at hd2)
      (by rw [e]; show d ≠ 1; rintro rfl; simp at hd2), e, beginScope_open ho]
  · rw [hsub, h1 hn]; omega
  · rw [hsub, h2 hn]; omega

/-- A body in a scope of its own, called with no scope open: one commit of the painting. -/
theorem inScope_cases_idle {s : State} {points : List Point} {on : Bool} {nests : Prop} {body : State → State}
    (hb : DrawsOpen s.cfg points on nests body) (h0 : s.batchDepth = 0) :
    inScope body s = commitScope { s with
      backBuffer := paint s.cfg points on s.buffer
      dirty := s.dirty || anyInRange s.cfg points
      batchDepth := 0 } := by
  obtain ⟨d, e, h1, h2⟩ := hb { s with backBuffer := s.buffer, batchDepth := 1 } rfl (by simp)
  have hd := drawsOpen_depth_le h1 h2
  have hd1 : d = 1 := BitVec.eq_of_toNat_eq (by simp at hd ⊢; omega)
  subst hd1
  rw [inScope_idle h0 (by rw [e]), e]

/-- A body in a scope of its own has the effect of drawing its points, and commits once. -/
theorem inScope_effect {s : State} (hs : s.Inv) {points : List Point} {P : Int → Int → Prop} {on : Bool}
    {nests : Prop} {body : State → State} (hb : DrawsOpen s.cfg points on nests body)
    (h : ∀ x y, inRange s.cfg x y → (P x y ↔ (x, y) ∈ points)) : DrawEffect nests P on s (inScope body s) := by
  have hhit : anyInRange s.cfg points = true ↔ hits s.cfg P := (anyInRange_iff _ _).trans (hits_congr h).symm
  by_cases ho : scopeOpen s
  · obtain ⟨d, e, hd, h1, h2⟩ := inScope_cases_open hb ho
    rw [e]
    refine ⟨by constructor <;> rfl, fun _ => ?_, fun h' => absurd ho h'⟩
    exact ⟨rfl, paint_painted on hs.backBuffer h, by simp [← hhit], rfl, rfl, rfl, hd, h1, h2⟩
  · rw [inScope_cases_idle hb (not_not.1 ho)]
    refine ⟨?_, fun h' => absurd h' ho, fun _ => ?_⟩
    · exact SameControl.trans (by constructor <;> rfl) (commitScope_control _)
    · exact commitScope_oneCommit hhit (paint_painted on hs.buffer h) fun hq => paint_of_none hq on _

/-- Drawing a list of points is `DrawEffect` for every set of pixels with the same members on the display. -/
theorem drawPoints_effect {s : State} (hs : s.Inv) {points : List Point} {P : Int → Int → Prop} (on : Bool)
    (h : ∀ x y, inRange s.cfg x y → (P x y ↔ (x, y) ∈ points)) :
    DrawEffect False P on s (drawPoints points on s) := inScope_effect hs (drawsOpen_plot _ points on) h

/-! ## The invariant -/

/-- A commit with the depth at 0 keeps the invariant. -/
theorem commitScope_inv {s : State} {back : Memory} (hs : s.Inv) (hb : bufferOk s.cfg back) (d : Bool) :
    (commitScope { s with backBuffer := back, dirty := d, batchDepth := 0 }).Inv := by
  rcases commitScope_cases { s with backBuffer := back, dirty := d, batchDepth := 0 } with
    ⟨-, -, he⟩ | ⟨-, -, he⟩ | ⟨-, he⟩ <;> rw [he]
  · refine ⟨hs.cfg, hb, hs.buffer, hs.textSize, hs.geometry, fun h => absurd rfl h, hs.latch, fun e h => ?_⟩
    rcases List.mem_append.1 h with h | h
    · exact hs.events e h
    · rw [List.mem_singleton.1 h]; exact hb
  · exact ⟨hs.cfg, hb, hs.buffer, hs.textSize, hs.geometry, fun h => absurd rfl h, hs.latch, hs.events⟩
  · exact ⟨hs.cfg, hs.buffer, hb, hs.textSize, hs.geometry, fun h => absurd rfl h, hs.latch, hs.events⟩

/-- A procedure in a scope of its own keeps the invariant. -/
theorem inScope_inv {s : State} (hs : s.Inv) {points : List Point} {on : Bool} {nests : Prop} {body : State → State}
    (hb : DrawsOpen s.cfg points on nests body) : (inScope body s).Inv := by
  by_cases ho : scopeOpen s
  · obtain ⟨d, e, -⟩ := inScope_cases_open hb ho
    rw [e]
    refine ⟨hs.cfg, hs.buffer, paint_ok points on hs.backBuffer, hs.textSize, hs.geometry, fun _ hq => ?_, hs.latch,
      hs.events⟩
    obtain ⟨h1, h2⟩ := Bool.or_eq_false_iff.1 hq
    show paint s.cfg points on s.backBuffer = s.buffer
    rw [paint_of_none h2, hs.clean ho h1]
  · rw [inScope_cases_idle hb (not_not.1 ho)]
    exact commitScope_inv hs (paint_ok points on hs.buffer) _

/-- Overwriting the back buffer keeps the invariant. -/
theorem overwriteBack_inv {s : State} (hs : s.Inv) (f : State → Nat → Byte) : (overwriteBack f s).Inv := by
  by_cases ho : scopeOpen s
  · rw [overwriteBack_open f ho]
    exact ⟨hs.cfg, hs.buffer, ⟨tabulate_wf _ _, tabulate_within _ _⟩, hs.textSize, hs.geometry,
      fun _ hq => by simp at hq, hs.latch, hs.events⟩
  · rw [overwriteBack_idle f (not_not.1 ho)]
    exact commitScope_inv hs ⟨tabulate_wf _ _, tabulate_within _ _⟩ _

end Sys2Proof.Machine
end

