-- ==== Sys2Proof/Laws/Procedures.lean ====
section
/-! SUPPORT. The procedures that call other procedures: `Char` (R191), the triangle outline (R171) and the
filled triangle (R173), as bodies that
draw lists of points. -/

namespace Sys2Proof.Machine

/-- The pixels a set glyph pixel covers. -/
def glyphPixelPoints (p : Params) (x y : Int) (size : Nat) (q : Nat × Nat) : List Point :=
  if 1 < size then boxPoints p (x + q.1 * size) (y + q.2 * size) size size else [(x + q.1, y + q.2)]

theorem drawsOpen_glyphPixel (p : Params) (x y : Int) (color : Bool) (size : Nat) (q : Nat × Nat) :
    DrawsOpen p (glyphPixelPoints p x y size q) color (1 < size) (drawGlyphPixel x y color size q) := by
  rintro s rfl ho
  unfold drawGlyphPixel glyphPixelPoints drawBox
  split
  · exact (drawsOpen_drawPoints s.cfg _ color).congr (iff_of_true trivial ‹_›) s rfl ho
  · exact (drawsOpen_setPixel s.cfg _ _ color).congr (iff_of_false id ‹_›) s rfl ho

/-- Its nesting is that of `glyphNests`: a set bit and a size above 1. -/
theorem glyphNests_iff {p : Params} {c size : Nat} :
    (1 < size ∧ ∃ q, q ∈ glyphPixels p c) ↔ glyphNests p c size := by
  simp only [glyphNests, Prod.exists, mem_glyphPixels, glyphBit]

/-- The body of `Char`. -/
theorem drawsOpen_glyph (p : Params) (x y : Int) (c : Nat) (color : Bool) (size : Nat) :
    DrawsOpen p ((glyphPixels p c).flatMap (glyphPixelPoints p x y size)) color (glyphNests p c size)
      (fun s => (glyphPixels s.cfg c).foldl (fun s q => drawGlyphPixel x y color size q s) s) := by
  rintro s rfl ho
  exact (drawsOpen_foldl (glyphPixelPoints s.cfg x y size) (1 < size) (drawGlyphPixel x y color size)
    (drawsOpen_glyphPixel s.cfg x y color size) (glyphPixels s.cfg c)).congr glyphNests_iff s rfl ho

/-- The pixels of a glyph at a size are those of `inGlyph`, on the display (R192). -/
theorem mem_glyphPoints {p : Params} {x y : Int} {c size : Nat} {a b : Int} (h : inRange p a b) :
    inGlyph p x y c size a b ↔ (a, b) ∈ (glyphPixels p c).flatMap (glyphPixelPoints p x y size) := by
  have key : ∀ col row : Nat, (a, b) ∈ glyphPixelPoints p x y size (col, row) ↔
      (x + col * (max size 1 : Nat) ≤ a ∧ a < x + col * (max size 1 : Nat) + (max size 1 : Nat) ∧
        y + row * (max size 1 : Nat) ≤ b ∧ b < y + row * (max size 1 : Nat) + (max size 1 : Nat)) := by
    intro col row
    unfold glyphPixelPoints
    split
    · rw [mem_boxPoints, show max size 1 = size by omega]
      simp only
      omega
    · rw [show max size 1 = 1 by omega]
      simp only [List.mem_singleton, Prod.mk.injEq]
      push_cast
      omega
  simp only [inGlyph, List.mem_flatMap, Prod.exists, mem_glyphPixels, key, glyphBit]
  constructor
  · rintro ⟨col, row, h1, h2, h3, h4⟩; exact ⟨col, row, ⟨h1, h2, h3⟩, h4⟩
  · rintro ⟨col, row, ⟨h1, h2, h3⟩, h4⟩; exact ⟨col, row, h1, h2, h3, h4⟩

/-- The body of `FillTriangle`: it nests if it has a row. -/
theorem drawsOpen_triangleRuns (p : Params) (v0 v1 v2 : Point) :
    DrawsOpen p ((triangleRuns v0 v1 v2).flatMap runPoints) true (¬ (v0.2 = v1.2 ∧ v1.2 = v2.2))
      (fun s => (triangleRuns v0 v1 v2).foldl (fun s q => drawHLine q.1 q.2.1 q.2.2 s) s) :=
  (drawsOpen_foldl runPoints True (fun q => drawHLine q.1 q.2.1 q.2.2) (fun q => drawsOpen_drawPoints p _ true)
    (triangleRuns v0 v1 v2)).congr (by rw [true_and, exists_triangleRuns])

/-- The body of the triangle outline. -/
theorem drawsOpen_threeLines (p : Params) (x0 y0 x1 y1 x2 y2 : Int) :
    DrawsOpen p (linePoints x0 y0 x1 y1 ++ linePoints x1 y1 x2 y2 ++ linePoints x2 y2 x0 y0) true True
      (fun s => drawLine x2 y2 x0 y0 (drawLine x1 y1 x2 y2 (drawLine x0 y0 x1 y1 s))) :=
  (((drawsOpen_drawPoints p _ true).comp (drawsOpen_drawPoints p _ true)).comp
    (drawsOpen_drawPoints p _ true)).congr (by simp)

end Sys2Proof.Machine
end

