-- ==== Sys2Proof/Tests/Slice0.lean ====
section
/-! SUPPORT. The model's own tests: ill-formed terms, words written out from the spec's encodings, single steps with
results from 95_test_vectors.md and the rules' own examples, and a witness for the hypotheses of each obligation. -/

namespace Sys2Proof.Tests

open Sys2Proof Sys2Proof.Machine

set_option Elab.async false

/-! ## Small states -/

/-- An instance of a size, with the example glyph table. -/
def disp (w h : Nat) : Params where
  width := w
  height := h
  resW := 0
  resH := 0
  type := .monochrome
  glyphRom := Config.exampleRom
  minUpdateInterval := 16667

/-- "Cleared, throttling off" (95_test_vectors.md). -/
def cleared (w h : Nat) : State := { State.resetWith (disp w h) with throttleUpdates := false }

/-- A memory from its bytes. -/
def mem (bytes : List Byte) : Memory := Memory.tabulate bytes.length fun a => bytes.getD a 0

/-- Cleared, with a front buffer. -/
def holding (w h : Nat) (bytes : List Byte) : State := { cleared w h with buffer := mem bytes }

/-- One property of the state after a command. -/
def after (i : Instr) (s : State) (p : State → Bool) : Bool :=
  match exec i s with
  | .next t => p t
  | .fault _ => false
  | .refused _ => false

/-- The front buffer after a command, with the number of events it emitted. -/
def shows (i : Instr) (s : State) (bytes : List Byte) (events : Nat) : Bool :=
  after i s fun t => t.buffer = mem bytes ∧ t.events.length = events ∧ t.dirty = false ∧ t.batchDepth = 0

/-! ## Ill-formed terms -/

theorem test_wf_coordLow : (Instr.setPixel (-32769) 0 true).wf = false := by decide
theorem test_wf_coordHigh : (Instr.getPixel 0 32768).wf = false := by decide
theorem test_wf_setCursor : (Instr.setCursor 32768 0).wf = false := by decide
theorem test_wf_byte : (Instr.write 256).wf = false := by decide
theorem test_wf_rotation : (Instr.setRotation 256).wf = false := by decide
theorem test_wf_textSize : (Instr.setTextSize 256).wf = false := by decide
theorem test_wf_charCode : (Instr.drawChar 0 0 256 true 1).wf = false := by decide
theorem test_wf_charSize : (Instr.drawChar 0 0 65 true 256).wf = false := by decide
theorem test_wf_charPlace : (Instr.drawChar 0 (-32769) 65 true 1).wf = false := by decide
theorem test_wf_box : (Instr.drawBox 0 0 32768 1 true).wf = false := by decide
theorem test_wf_rect : (Instr.drawRect 0 0 1 (-32769)).wf = false := by decide
theorem test_wf_line : (Instr.drawLine 0 0 32768 0).wf = false := by decide
theorem test_wf_hline : (Instr.drawHLine 0 0 32768).wf = false := by decide
theorem test_wf_vline : (Instr.drawVLine 0 32768 1).wf = false := by decide
theorem test_wf_circle : (Instr.drawCircle 32768 0 1).wf = false := by decide
theorem test_wf_disc : (Instr.fillCircle 0 0 (-32769)).wf = false := by decide
theorem test_wf_triangle : (Instr.drawTriangle 0 0 0 0 0 32768).wf = false := by decide
theorem test_wf_fillTriangle : (Instr.fillTriangle 0 0 32768 0 0 0).wf = false := by decide
theorem test_wf_xbmShort : (Instr.drawXbm 0 0 9 1 [0xFF]).wf = false := by decide
theorem test_wf_xbmEmpty : (Instr.drawXbm 0 0 (-1) 1 [0xFF]).wf = false := by decide
theorem test_wf_xbmExtent : (Instr.drawXbm 0 0 32768 0 []).wf = false := by decide
theorem test_wf_bounds : (Instr.setPixel (-32768) 32767 true).wf = true := by decide
theorem test_wf_xbm : (Instr.drawXbm 1 1 10 2 [0xFF, 0x03, 0x01, 0x02]).wf = true := by decide

/-! ## Decoding words written out from R91 to R98 -/

theorem test_decode_beginUpdate : decode [0x01000000] = .instr .beginUpdate [] := by decide
theorem test_decode_endUpdate : decode [0x02000000] = .instr .endUpdate [] := by decide
theorem test_decode_setForceUpdate : decode [0x03000001] = .instr (.setForceUpdate true) [] := by decide
theorem test_decode_needsUpdate : decode [0x04000000] = .instr .needsUpdate [] := by decide
theorem test_decode_setThrottle : decode [0x05000000] = .instr (.setThrottle false) [] := by decide
theorem test_decode_invert : decode [0x06000001] = .instr (.invert true) [] := by decide
theorem test_decode_clear : decode [0x07000000] = .instr .clear [] := by decide
theorem test_decode_fill : decode [0x08000000] = .instr .fill [] := by decide
theorem test_decode_setRotation : decode [0x09050000] = .instr (.setRotation 5) [] := by decide
theorem test_decode_setTextSize : decode [0x0A020000] = .instr (.setTextSize 2) [] := by decide
theorem test_decode_write : decode [0x0B410000] = .instr (.write 0x41) [] := by decide
theorem test_decode_setPixel : decode [0x10000001, 0x003F007F] = .instr (.setPixel 127 63 true) [] := by decide
theorem test_decode_getPixel : decode [0x11000000, 0xFFFF0000] = .instr (.getPixel 0 (-1)) [] := by decide
theorem test_decode_setCursor : decode [0x12000000, 0xFFFD000A] = .instr (.setCursor 10 (-3)) [] := by decide
theorem test_decode_drawChar :
    decode [0x13410201, 0xFFFE0003] = .instr (.drawChar 3 (-2) 0x41 true 2) [] := by decide
theorem test_decode_drawBox :
    decode [0x20000000, 0x00000006, 0x00010004] = .instr (.drawBox 6 0 4 1 false) [] := by decide
theorem test_decode_drawRect :
    decode [0x21000000, 0x00010002, 0x00030004] = .instr (.drawRect 2 1 4 3) [] := by decide
theorem test_decode_drawLine :
    decode [0x22000000, 0xFFFFFFFE, 0x00020003] = .instr (.drawLine (-2) (-1) 3 2) [] := by decide
theorem test_decode_drawHLine :
    decode [0x23000000, 0x00140015, 0x00000003] = .instr (.drawHLine 21 20 3) [] := by decide
theorem test_decode_drawVLine :
    decode [0x24000000, 0xFFFF0003, 0x00000004] = .instr (.drawVLine 3 (-1) 4) [] := by decide
theorem test_decode_drawCircle :
    decode [0x25000000, 0x00030004, 0x0000FFFF] = .instr (.drawCircle 4 3 (-1)) [] := by decide
theorem test_decode_fillCircle :
    decode [0x26000000, 0x00070008, 0x00000003] = .instr (.fillCircle 8 7 3) [] := by decide
theorem test_decode_drawTriangle : decode [0x30000000, 0x00000001, 0x00030006, 0x00070002] =
    .instr (.drawTriangle 1 0 6 3 2 7) [] := by decide
theorem test_decode_fillTriangle : decode [0x31000000, 0x00000001, 0x00030006, 0x00070002] =
    .instr (.fillTriangle 1 0 6 3 2 7) [] := by decide
theorem test_decode_drawXbm : decode [0xA0000000, 0x0006FFFE, 0x0003000A, 0x015503FF, 0x0000FFFF] =
    .instr (.drawXbm (-2) 6 10 3 [0xFF, 0x03, 0x55, 0x01, 0xFF, 0xFF]) [] := by decide
/-- T94: no payload for a non-positive extent. -/
theorem test_decode_drawXbmEmpty :
    decode [0xA0000000, 0x00000000, 0x00030000, 7] = .instr (.drawXbm 0 0 0 3 []) [7] := by decide
/-- T100 to T104: the lengths of reserved commands. -/
theorem test_decode_reserved :
    decode [0x00000000, 7] = .reserved 0x00 [7] ∧
    decode [0x2F000001, 0xDEADBEEF, 0x12345678, 7] = .reserved 0x2F [7] ∧
    decode [0xAF000000, 0x00000000, 0x00010009, 0xFFFFFFFF, 7] = .reserved 0xAF [7] ∧
    decode [0x7F000000, 1, 2, 3, 4, 5, 6, 7, 8] = .reserved 0x7F [8] ∧
    decode [0x90000000, 0x00010009, 7] = .reserved 0x90 [7] := by decide
/-- T105: P, Q and the reserved bits are ignored. -/
theorem test_decode_ignored : decode [0x10FFFFFF, 0x00010002] = .instr (.setPixel 2 1 true) [] := by decide
/-- T106: a command whose words have not all arrived. -/
theorem test_decode_incomplete : decode [0x22000000, 0x00000000] = .incomplete := by decide
theorem test_encode_drawVLine : encode (.drawVLine 3 (-1) 4) = [0x24000000, 0xFFFF0003, 0x00000004] := by decide
theorem test_encode_drawXbm : encode (.drawXbm (-2) 6 10 3 [0xFF, 0x03, 0x55, 0x01, 0xFF, 0xFF]) =
    [0xA0000000, 0x0006FFFE, 0x0003000A, 0x015503FF, 0x0000FFFF] := by decide
/-- R102's syntax, on a line of R105. -/
theorem test_asmText : asmText (.drawLine 0 0 4 (-1)) = "DRAW_LINE 0, 0, 4, -1" := by decide +kernel
/-- The host's numbering of an instruction's bits: the second word is bits 63..32. -/
theorem test_tableWord :
    decodeTableWord 32 0x08000000 = some .fill ∧ decodeTableWord 64 0x0001000210000001 = some (.setPixel 2 1 true) ∧
      decodeTableWord 32 0x22000000 = some (.drawLine 0 0 0 0) ∧ decodeTableWord 32 0xFF000000 = none := by decide

/-! ## Steps: the Framebuffer Store -/

theorem test_beginUpdate_seeds : after .beginUpdate (holding 8 4 [0, 4, 0, 0])
    (fun t => t.backBuffer = mem [0, 4, 0, 0] ∧ t.batchDepth = 1) = true := by decide +kernel
/-- P1 step 1. -/
theorem test_beginUpdate_status :
    after .beginUpdate (State.resetWith (disp 8 4)) (fun t => busRead t 0x008 = 0x0000010C) = true := by
  decide +kernel
/-- R131's example, from its third command. -/
theorem test_endUpdate_commits : after .endUpdate
    { cleared 8 4 with backBuffer := mem [0, 4, 0, 0], batchDepth := 1, dirty := true, now := 5 }
    (fun t => t.buffer = mem [0, 4, 0, 0] ∧ t.backBuffer = [] ∧ t.events = [⟨5, mem [0, 4, 0, 0]⟩] ∧
      t.lastUpdateTime = 5 ∧ busRead t 0x008 = 0) = true := by decide +kernel
/-- P2 step 5: an inner close. -/
theorem test_endUpdate_inner : after .endUpdate
    { cleared 8 4 with backBuffer := mem [1, 0, 0, 0], batchDepth := 2, dirty := true, now := 100 }
    (fun t => t.buffer = [] ∧ t.events = [] ∧ busRead t 0x008 = 0x00000105) = true := by decide +kernel
/-- P2 step 12. -/
theorem test_setForceUpdate : after (.setForceUpdate true) (cleared 8 4)
    (fun t => busRead t 0x008 = 0x00000002 ∧ t.events = []) = true := by decide +kernel
/-- T20. -/
theorem test_needsUpdate :
    after .needsUpdate { cleared 8 4 with forceUpdate := true } (fun t => t.resp = true) = true := by decide +kernel
/-- R135's example. -/
theorem test_setThrottle :
    after (.setThrottle false) (State.resetWith (disp 8 4)) (fun t => busRead t 0x008 = 0) = true := by
  decide +kernel
/-- R136's example. -/
theorem test_invert : shows (.invert true) (holding 8 4 [0, 4, 0, 0]) [0xFF, 0xFB, 0xFF, 0xFF] 1 = true := by
  decide +kernel
/-- T15's third command: the complement is of the front buffer. -/
theorem test_invert_inScope : after (.invert true)
    { holding 8 4 [0, 4, 0, 0] with backBuffer := mem [1, 4, 0, 0], batchDepth := 1, dirty := true }
    (fun t => t.backBuffer = mem [0xFF, 0xFB, 0xFF, 0xFF] ∧ t.buffer = mem [0, 4, 0, 0] ∧ t.batchDepth = 1) = true := by
  decide +kernel
/-- R137's example. -/
theorem test_clear : shows .clear (holding 8 4 [0, 4, 0, 0]) [0, 0, 0, 0] 1 = true := by decide +kernel
/-- R138's example: the padding bits are set. -/
theorem test_fill : shows .fill (holding 5 5 [0, 0, 0, 1]) [0xFF, 0xFF, 0xFF, 0xFF] 1 = true := by decide +kernel
/-- R139's example. -/
theorem test_setRotation : after (.setRotation 5) (cleared 128 64)
    (fun t => t.rotation = 1 ∧ busRead t 0x014 = 0x00800040 ∧ t.forceUpdate = true ∧ t.events = []) = true := by
  decide +kernel
/-- T19. -/
theorem test_setRotation_mod4 : after (.setRotation 255) (cleared 8 4) (fun t => t.rotation = 3) = true := by
  decide +kernel
/-- T1. -/
theorem test_setPixel : shows (.setPixel 2 1 true) (cleared 8 4) [0, 4, 0, 0] 1 = true := by decide +kernel
/-- T10: throttled at 16666. -/
theorem test_setPixel_throttled : after (.setPixel 0 0 true) { State.resetWith (disp 8 4) with now := 16666 }
    (fun t => t.buffer = mem [1, 0, 0, 0] ∧ t.events = [] ∧ t.dirty = true ∧ t.lastUpdateTime = 0) = true := by
  decide +kernel
/-- T7: (8, 0) has a valid bit index but is off the display. -/
theorem test_getPixel_off :
    after (.getPixel 8 0) (holding 8 4 [0xFF, 0xFF, 0xFF, 0xFF]) (fun t => t.resp = false) = true := by decide +kernel
/-- P1 step 6. -/
theorem test_getPixel :
    after (.getPixel 2 1) (holding 8 4 [0, 4, 0, 0]) (fun t => t.resp = true) = true := by decide +kernel

/-! ## Steps: the Raster Engine -/

/-- T30. -/
theorem test_drawBox : shows (.drawBox (-2) (-2) 5 5 true) (cleared 8 8) [7, 7, 7, 0, 0, 0, 0, 0] 1 = true := by
  decide +kernel
/-- T33. -/
theorem test_drawBox_clears : shows (.drawBox 1 1 2 2 false)
    (holding 8 8 [0xFF, 0xFF, 0xFF, 0xFF, 0xFF, 0xFF, 0xFF, 0xFF])
    [0xFF, 0xF9, 0xF9, 0xFF, 0xFF, 0xFF, 0xFF, 0xFF] 1 = true := by decide +kernel
/-- T34. -/
theorem test_drawRect : shows (.drawRect 1 1 4 3) (cleared 8 8) [0, 0x1E, 0x12, 0x1E, 0, 0, 0, 0] 1 = true := by
  decide +kernel
/-- T36. -/
theorem test_drawRect_clipped :
    shows (.drawRect 5 5 6 6) (cleared 8 8) [0, 0, 0, 0, 0, 0xE0, 0x20, 0x20] 1 = true := by decide +kernel
/-- T42. -/
theorem test_drawLine_steep : shows (.drawLine 0 0 3 7) (cleared 8 8) [1, 1, 2, 2, 4, 4, 8, 8] 1 = true := by
  decide +kernel
/-- T47. -/
theorem test_drawLine_backward :
    shows (.drawLine 7 7 0 4) (cleared 8 8) [0, 0, 0, 0, 0x03, 0x0C, 0x30, 0xC0] 1 = true := by decide +kernel
/-- T52. -/
theorem test_drawHLine : shows (.drawHLine 5 2 6) (cleared 8 8) [0, 0, 0xE0, 0, 0, 0, 0, 0] 1 = true := by
  decide +kernel
/-- T54: nothing is drawn, and with nothing pending nothing is flushed. -/
theorem test_drawHLine_empty : shows (.drawHLine 0 0 0) (cleared 8 8) [0, 0, 0, 0, 0, 0, 0, 0] 0 = true := by
  decide +kernel
/-- T53. -/
theorem test_drawVLine : shows (.drawVLine 3 (-1) 4) (cleared 8 8) [8, 8, 8, 0, 0, 0, 0, 0] 1 = true := by
  decide +kernel
/-- T64. -/
theorem test_drawCircle : shows (.drawCircle 7 7 4) (cleared 16 16)
    [0, 0, 0, 0, 0, 0, 0xC0, 1, 0x30, 6, 0x10, 4, 8, 8, 8, 8, 8, 8, 0x10, 4, 0x30, 6, 0xC0, 1, 0, 0, 0, 0, 0, 0, 0, 0]
    1 = true := by decide +kernel
/-- T65. -/
theorem test_drawCircle_clipped : shows (.drawCircle 0 0 2) (cleared 8 8) [4, 4, 3, 0, 0, 0, 0, 0] 1 = true := by
  decide +kernel
/-- T67, r = 3. -/
theorem test_fillCircle : shows (.fillCircle 7 7 3) (cleared 16 16)
    [0, 0, 0, 0, 0, 0, 0, 0, 0x80, 0, 0xE0, 3, 0xE0, 3, 0xF0, 7, 0xE0, 3, 0xE0, 3, 0x80, 0, 0, 0, 0, 0, 0, 0, 0, 0, 0, 0]
    1 = true := by decide +kernel
/-- T79. -/
theorem test_drawTriangle : shows (.drawTriangle 1 0 6 3 2 7) (cleared 8 8)
    [0x02, 0x0E, 0x32, 0x42, 0x24, 0x14, 0x0C, 0x04] 1 = true := by decide +kernel
/-- T71. -/
theorem test_fillTriangle : shows (.fillTriangle 2 7 6 3 1 0) (cleared 8 8)
    [0x02, 0x06, 0x1E, 0x7E, 0x3E, 0x1E, 0x0E, 0x04] 1 = true := by decide +kernel
/-- T76: truncation toward zero. -/
theorem test_fillTriangle_truncates : shows (.fillTriangle 0 0 3 1 (-3) 5) (cleared 8 8)
    [0x01, 0x0F, 0x03, 0x01, 0, 0, 0, 0] 1 = true := by decide +kernel

/-! ## Steps: glyphs, text, bitmaps -/

/-- T80. -/
theorem test_drawChar : shows (.drawChar 1 0 0x41 true 1) (cleared 8 8)
    [0x08, 0x14, 0x22, 0x22, 0x3E, 0x22, 0x22, 0x00] 1 = true := by decide +kernel
/-- T84. -/
theorem test_drawChar_scaled : shows (.drawChar 2 0 0x41 true 2) (cleared 16 16)
    [0xC0, 0, 0xC0, 0, 0x30, 3, 0x30, 3, 0x0C, 0x0C, 0x0C, 0x0C, 0x0C, 0x0C, 0x0C, 0x0C, 0xFC, 0x0F, 0xFC, 0x0F,
      0x0C, 0x0C, 0x0C, 0x0C, 0x0C, 0x0C, 0x0C, 0x0C, 0, 0, 0, 0] 1 = true := by decide +kernel
/-- T89. -/
theorem test_setCursor :
    after (.setCursor 10 (-3)) (cleared 8 8) (fun t => busRead t 0x018 = 0xFFFD000A) = true := by decide +kernel
/-- T89. -/
theorem test_setTextSize_zero :
    after (.setTextSize 0) (cleared 8 8) (fun t => busRead t 0x01C = 1) = true := by decide +kernel
/-- P5 step 6, drawn alone: column 2 of '!' is x = 8, rows 1 to 5 and 7; the cursor advances by 5. -/
theorem test_write : after (.write 0x21) { cleared 16 16 with cursorX := 6, cursorY := 1 }
    (fun t => t.cursorX = 11 ∧ t.cursorY = 1 ∧ t.buffer =
      mem [0, 0, 0, 1, 0, 1, 0, 1, 0, 1, 0, 1, 0, 0, 0, 1, 0, 0]) = true := by decide +kernel
/-- T87's line feed. -/
theorem test_write_lineFeed : after (.write 0x0A) { cleared 16 16 with cursorX := 10, textSize := 2 }
    (fun t => t.cursorX = 0 ∧ t.cursorY = 16 ∧ t.events = []) = true := by decide +kernel
/-- T90. -/
theorem test_drawXbm : shows (.drawXbm 1 1 10 2 [0xFF, 0x03, 0x01, 0x02]) (cleared 16 8)
    [0, 0, 0xFE, 0x07, 0x02, 0x04, 0, 0, 0, 0, 0, 0, 0, 0, 0, 0] 1 = true := by decide +kernel
/-- T91. -/
theorem test_drawXbm_clipped : shows (.drawXbm (-2) 6 10 3 [0xFF, 0x03, 0x55, 0x01, 0xFF, 0xFF]) (cleared 8 8)
    [0, 0, 0, 0, 0, 0, 0xFF, 0x55] 1 = true := by decide +kernel

/-! ## Steps: the port -/

/-- One property of the state after a step. -/
def stepped (s : State) (p : State → Bool) : Bool :=
  match step s with
  | .next t => p t
  | .fault _ => false
  | .refused _ => false

/-- R105's first command, as the first after reset. -/
theorem test_step_fetchWord : stepped ((State.resetWith (disp 8 4)).withFetchWord 64 0x0001000210000001)
    (fun t => t.buffer = mem [0, 4, 0, 0] ∧ t.inputs = [] ∧ t.decodeLatch = []) = true := by decide +kernel
/-- T106: a latched header shows in STATUS. -/
theorem test_step_partial : stepped { cleared 8 4 with inputs := [.write 0 4 0x22000000] }
    (fun t => busRead t 0x008 = 0x00010000) = true := by decide +kernel
/-- P1's end state: FB[0] reads 0x00000400. -/
theorem test_step_window : stepped { holding 8 4 [0, 4, 0, 0] with inputs := [.read 0x1000 4] }
    (fun t => t.readData = [0x00000400]) = true := by decide +kernel
/-- P6 step 3, its last word. -/
theorem test_step_reserved :
    step { cleared 16 8 with decodeLatch := [0x2F000001, 0xDEADBEEF], inputs := [.write 0 4 0x12345678] } =
      .next (cleared 16 8) := rfl
theorem test_step_reset : step { cleared 8 4 with batchDepth := 3, now := 7, inputs := [.reset] } =
    .next { State.resetWith (disp 8 4) with now := 7 } := rfl

/-! ## Witnesses: states and operands that meet the hypotheses of the obligations

The states: `cleared 8 4` has no scope open and does not throttle, `open84` has one scope open, `late84` is throttled,
`lateOpen84` is throttled with a written scope open. -/

def open84 : State := { cleared 8 4 with batchDepth := 1 }
def late84 : State := { State.resetWith (disp 8 4) with now := 5 }
def lateOpen84 : State := { late84 with batchDepth := 1, dirty := true, backBuffer := mem [1, 0, 0, 0] }

/-- For RegistersShowTheirState, ResetStateIsTheResetTable, ResetMeetsTheInvariant and SetRotationReportsGeometry. -/
theorem witness_cfg : (disp 8 4).wf := by decide +kernel
theorem witness_cfg_bounds : (disp 1 1).wf ∧ (disp 32767 32767).wf := by decide +kernel

/-- The invariant from its checks. -/
theorem inv_of_checks {s : State} (h1 : s.cfg.wf) (h2 : bufferOk s.cfg s.buffer) (h3 : bufferOk s.cfg s.backBuffer)
    (h4 : s.textSize ≠ 0) (h5 : geometryOk s) (h6 : scopeOpen s → s.dirty = false → s.backBuffer = s.buffer)
    (h7 : commandComplete s.decodeLatch = false) (h8 : ∀ e ∈ s.events, bufferOk s.cfg e.frame) : s.Inv :=
  ⟨h1, h2, h3, h4, h5, h6, h7, h8⟩

/-- For InvertTwiceRestores, and one case of ClearAndFillSetEveryByte. -/
theorem witness_inv_closed : (cleared 8 4).Inv ∧ ¬ scopeOpen (cleared 8 4) :=
  ⟨by apply inv_of_checks <;> decide +kernel, by decide⟩
/-- For the other case of ClearAndFillSetEveryByte and of InvertComplementsTheFrontBuffer. -/
theorem witness_inv_open : open84.Inv ∧ scopeOpen open84 :=
  ⟨by apply inv_of_checks <;> decide +kernel, by decide⟩
theorem witness_inv_throttled : late84.Inv ∧ ¬ scopeOpen late84 ∧ throttled late84 = true :=
  ⟨by apply inv_of_checks <;> decide +kernel, by decide, by decide⟩
theorem witness_inv_written : lateOpen84.Inv ∧ scopeOpen lateOpen84 ∧ lateOpen84.dirty = true :=
  ⟨by apply inv_of_checks <;> decide +kernel, by decide, by decide⟩

theorem witness_EncodedCommandsDecodeToThemselves : (Instr.drawXbm (-32768) 32767 10 2 [0xFF, 3, 1, 2]).wf = true := by
  decide
/-- One header of each row of the opcode map, and both kinds of payload of its last row. -/
theorem witness_OpcodeMapNamesEachCommand :
    (assignedOpcodes.all fun o => decide ((o.setWidth 32 <<< 24) >>> 24 = o.setWidth 32)) = true ∧
      commandLength [0xA0000000, 0, 0x00030000] = some (3 + ([] : List Word).length) ∧
      commandLength [0xA0000000, 0, 0x0002000A, 0x020103FF] = some (3 + [0x020103FF#32].length) := by decide
theorem witness_CommandLengthFollowsHeaderAndW2 :
    (0x7F000000 : Word).getLsbD 31 = false ∧ (((0x9F000000 : Word) >>> 28) &&& 7#32).toNat < 2 ∧
      (0xA0000000 : Word).getLsbD 31 = true ∧ 2 ≤ (((0xA0000000 : Word) >>> 28) &&& 7#32).toNat := by decide
theorem witness_XbmPayloadCarriesBitmapBytes :
    (0xA0FFFFFF : Word) >>> 24 = 0xA0#32 ∧ [0x020103FF#32].length = payloadWords 0x0002000A ∧
      ([] : List Word).length = payloadWords 0x00020000 := by decide
theorem witness_IgnoredFieldsDoNotMatter :
    (headerOpc 0x1041FFFF = headerOpc 0x10000001 ∧
      0x1041FFFF &&& usedHeaderBits 0x10 = 0x10000001 &&& usedHeaderBits 0x10) ∧
    (headerOpc 0x26000000 ∈ [0x23#8, 0x24, 0x25, 0x26] ∧
      (0x00000003 : Word).setWidth 16 = (0xFFFF0003 : Word).setWidth 16) ∧
    (headerOpc 0xA0000000 = 0xA0 ∧ [0x000000FF#32].length = payloadWords 0x00010008 ∧
      ((0x000000FF : Word) >>> 0).setWidth 8 = ((0xFFFFFFFF : Word) >>> 0).setWidth 8) := by decide
theorem witness_ReservedOpcodesAreNoOps :
    headerOpc 0x00000000 ∉ assignedOpcodes ∧ commandLength [0x00000000] = some 1 ∧
      headerOpc 0x7F000000 ∉ assignedOpcodes ∧ commandLength [0x7F000000, 1, 2, 3, 4, 5, 6, 7] = some 8 := by decide
theorem witness_CommandExecutesWhenItsLastWordArrives :
    decode [0x10000001, 0x00010002] = .instr (.setPixel 2 1 true) [] ∧ (cleared 8 4).decodeLatch = [] ∧
      { cleared 8 4 with inputs := pushWords [0x10000001, 0x00010002] ++ [Input.reset] }.inputs =
        pushWords [0x10000001, 0x00010002] ++ [Input.reset] := by decide
theorem witness_StepRunsTheDecodedCommand :
    { cleared 8 4 with decodeLatch := [0x10000001], inputs := [.write 0x000 4 0x00010002] }.inputs =
        [.write 0x000 4 0x00010002] ∧
      decode ([0x10000001] ++ [0x00010002]) = .instr (.setPixel 2 1 true) [] ∧
      (Instr.setPixel 2 1 true).wf = true := by decide
theorem witness_IncompleteCommandWaits :
    { cleared 8 4 with inputs := [.write 0x000 4 0x22000000] }.inputs = [.write 0x000 4 0x22000000] ∧
      decode ((cleared 8 4).decodeLatch ++ [0x22000000]) = .incomplete := by decide
theorem witness_EveryStepKeepsTheInvariant :
    { open84 with inputs := [.write 0x000 4 0x08000000] }.Inv ∧
      ∃ t, step { open84 with inputs := [.write 0x000 4 0x08000000] } = .next t :=
  ⟨by apply inv_of_checks <;> decide +kernel, _, rfl⟩
theorem witness_GeometryNeverChanges : late84.Inv ∧ ∃ t, step late84 = .next t := ⟨witness_inv_throttled.1, _, rfl⟩
theorem witness_ResetInputRestoresTheResetState :
    { open84 with inputs := [.reset] }.inputs = .reset :: ([] : List Input) := by decide
/-- Both clauses of AtMostOneFlushEventPerStep occur, and the reset clause. -/
theorem witness_AtMostOneFlushEventPerStep :
    stepped { cleared 8 4 with inputs := [.write 0x000 4 0x08000000], now := 9 }
      (fun t => t.events = [⟨9, t.buffer⟩] ∧ t.lastUpdateTime = 9) = true ∧
    stepped { cleared 8 4 with inputs := [.write 0x000 4 0x01000000] } (fun t => t.events = []) = true ∧
    stepped { cleared 8 4 with inputs := [.reset], lastUpdateTime := 9 } (fun t => t.lastUpdateTime = 0) = true := by
  decide +kernel
/-- `END_UPDATE` at depth 2, and another command at depth 1. -/
theorem witness_OpenScopeHidesEveryWrite :
    (scopeOpen { open84 with batchDepth := 2 } ∧ { open84 with batchDepth := 2 }.batchDepth ≠ 1 ∧
      ∃ t, exec .endUpdate { open84 with batchDepth := 2 } = .next t) ∧
    scopeOpen open84 ∧ Instr.fill ≠ .endUpdate ∧ ∃ t, exec .fill open84 = .next t :=
  ⟨⟨by decide, by decide, _, rfl⟩, by decide, by decide, _, rfl⟩
/-- Each register does change under its writer. -/
theorem witness_RegistersHaveTheWritersNamed :
    after (.setThrottle true) (cleared 8 4) (fun t => t.throttleUpdates ≠ (cleared 8 4).throttleUpdates) = true ∧
    after (.setCursor 0 1) (cleared 8 4) (fun t => t.cursorY ≠ (cleared 8 4).cursorY) = true ∧
    after (.write 0x20) (cleared 8 4) (fun t => t.cursorX ≠ (cleared 8 4).cursorX) = true ∧
    after (.setTextSize 255) (cleared 8 4) (fun t => t.textSize ≠ (cleared 8 4).textSize) = true ∧
    after (.setRotation 1) (cleared 8 4) (fun t => t.displayWidth ≠ (cleared 8 4).displayWidth) = true ∧
    after (.invert true) (cleared 8 4) (fun t => t.inverted ≠ (cleared 8 4).inverted) = true ∧
    after .needsUpdate late84 (fun t => t.resp = late84.resp) = true ∧
    after .needsUpdate lateOpen84 (fun t => t.resp ≠ lateOpen84.resp) = true ∧
    (cleared 8 4).now ≠ 9 ∧ { cleared 8 4 with inputs := [.clock 9] }.inputs = .clock 9 :: ([] : List Input) ∧
    stepped { cleared 8 4 with inputs := [.clock 9] } (fun t => t.now = 9) = true := by decide +kernel
theorem witness_MetadataDoesNotReachPixels :
    (∀ v, Instr.clear ≠ .invert v) ∧ (∃ t, exec .clear open84 = .next t) ∧
      ∃ t, exec .clear { open84 with rotation := 3, displayWidth := 4, displayHeight := 8, inverted := true } = .next t :=
  ⟨by decide, ⟨_, rfl⟩, _, rfl⟩
theorem witness_BackBufferIsUnobservableOutsideAScope :
    ¬ scopeOpen (cleared 8 4) ∧ (∃ t, exec .fill (cleared 8 4) = .next t) ∧
      ∃ t, exec .beginUpdate (cleared 8 4) = .next t ∧ scopeOpen t :=
  ⟨by decide, ⟨_, rfl⟩, _, rfl, by decide⟩
theorem witness_AccessOutsideTheInterfaceIsRefused :
    ¬ (2 % 4 = 0 ∧ 4 = 4) ∧ ¬ (4 % 4 = 0 ∧ 2 = 4) ∧
      { open84 with inputs := [.read 2 4] }.inputs = [.read 2 4] ∧
      { open84 with inputs := [.write 4 2 1] }.inputs = [.write 4 2 1] := by decide
/-- Boundary offsets of each clause of ReadsHaveNoSideEffect on the 8 by 4 display, whose window has one word. -/
theorem witness_ReadsHaveNoSideEffect :
    (0x004 % 4 = 0 ∧ { open84 with inputs := [.read 4 4, .read 4 4] }.inputs = [.read 4 4, .read 4 4]) ∧
    { open84 with inputs := [.read 8 4, .clock 9, .read 8 4] }.inputs = [.read 8 4, .clock 9, .read 8 4] ∧
    (0x1000 % 4 = 0 ∧ 0x1000 ≠ 0x000 ∧ { open84 with inputs := [.write 0x1000 4 1] }.inputs = [.write 0x1000 4 1]) ∧
    (0x030 ≤ 0x030 ∧ 0x030 < 0x1000) ∧ (0x030 ≤ 0xFFC ∧ 0xFFC < 0x1000) ∧
    0x1000 + 4 * ((open84.cfg.nbytes + 3) / 4) ≤ 0x1004 := by decide
/-- The last bit of the buffer and the first past it. -/
theorem witness_WindowShowsTheFrontBuffer :
    (31 < 32 ∧ 32 * 0 + 31 < 8 * open84.cfg.nbytes) ∧ (0 < 32 ∧ ¬ 32 * 1 + 0 < 8 * open84.cfg.nbytes) := by decide
/-- On and off the display, with the scope states of the witnesses above. -/
theorem witness_SetPixelWritesOnePixel :
    inRange (cleared 8 4).cfg 7 3 ∧ ¬ inRange (cleared 8 4).cfg 8 0 ∧ throttled (cleared 8 4) = false ∧
      throttled late84 = true := by decide
theorem witness_SetPixelThenGetPixel :
    (cleared 8 4).Inv ∧ ¬ scopeOpen (cleared 8 4) ∧ inRange (cleared 8 4).cfg 7 3 ∧ ((6 : Int), (3 : Int)) ≠ (7, 3) :=
  ⟨witness_inv_closed.1, by decide, by decide, by decide⟩
theorem witness_BeginUpdateOpensAScope :
    (cleared 8 4).batchDepth = 0 ∧ (0 < open84.batchDepth.toNat ∧ open84.batchDepth.toNat < 255) ∧
      (0 < ({ open84 with batchDepth := 254 } : State).batchDepth.toNat ∧
        ({ open84 with batchDepth := 254 } : State).batchDepth.toNat < 255) ∧
      ({ open84 with batchDepth := 255 } : State).batchDepth.toNat = 255 := by decide
theorem witness_EndUpdateCommitsOnlyTheOutermostScope :
    (cleared 8 4).batchDepth = 0 ∧ 1 < ({ open84 with batchDepth := 2 } : State).batchDepth.toNat ∧
      (open84.batchDepth = 1 ∧ open84.dirty = false ∧ open84.forceUpdate = false) ∧
      (lateOpen84.batchDepth = 1 ∧ (lateOpen84.dirty = true ∨ lateOpen84.forceUpdate = true) ∧
        throttled lateOpen84 = true) ∧
      throttled { lateOpen84 with throttleUpdates := false } = false := by decide
theorem witness_NestedScopesCommitOnce :
    (cleared 8 4).Inv ∧ ¬ scopeOpen (cleared 8 4) ∧ inRange (cleared 8 4).cfg 0 0 :=
  ⟨witness_inv_closed.1, by decide, by decide⟩
theorem witness_InvertComplementsTheFrontBuffer :
    false = (cleared 8 4).inverted ∧ true ≠ (cleared 8 4).inverted ∧ true ≠ open84.inverted := by decide
theorem witness_FlushAttemptRule :
    ((lateOpen84.dirty = true ∨ lateOpen84.forceUpdate = true) ∧ throttled { lateOpen84 with now := 16667 } = false) ∧
      throttled { lateOpen84 with now := 16666 } = true ∧
      (open84.dirty = false ∧ open84.forceUpdate = false) := by decide
theorem witness_SecondWriteWithinIntervalIsThrottled :
    { late84 with now := 20000 }.Inv ∧ ¬ scopeOpen { late84 with now := 20000 } ∧ inRange late84.cfg 0 0 ∧
      inRange late84.cfg 1 0 ∧ late84.throttleUpdates = true ∧ throttled { late84 with now := 20000 } = false ∧
      (20000#64).toNat ≤ (36666#64).toNat ∧ (36666#64).toNat < (20000#64).toNat + late84.cfg.minUpdateInterval.toNat :=
  ⟨by apply inv_of_checks <;> decide +kernel, by decide, by decide, by decide, by decide, by decide, by decide,
    by decide⟩
theorem witness_FirstFlushAfterReset :
    (disp 8 4).wf ∧ inRange (disp 8 4) 7 3 ∧ (disp 8 4).minUpdateInterval.toNat ≤ (16667#64).toNat ∧
      (16666#64).toNat < (disp 8 4).minUpdateInterval.toNat :=
  ⟨witness_cfg, by decide, by decide, by decide⟩
theorem witness_ThrottledCommitIsNeverAnnounced :
    lateOpen84.batchDepth = 1 ∧ (lateOpen84.dirty = true ∨ lateOpen84.forceUpdate = true) ∧
      throttled lateOpen84 = true := by decide
theorem witness_ScopeDepthSaturates : ¬ scopeOpen (cleared 8 4) ∧ 0 < 300 := by decide
/-- The statements of the form DrawBox…, DrawRect…, DrawHLine…, DrawLine…, DrawCircle…, FillCircle…, DrawTriangle…,
FillTriangle…, DrawChar…, DrawXbm… ask only for the invariant; both of their cases occur. -/
theorem witness_DrawEffect :
    ((cleared 8 4).Inv ∧ ¬ scopeOpen (cleared 8 4)) ∧ (open84.Inv ∧ scopeOpen open84) ∧
      ({ open84 with batchDepth := 255 }.Inv ∧ scopeOpen { open84 with batchDepth := 255 }) :=
  ⟨witness_inv_closed, witness_inv_open, by apply inv_of_checks <;> decide +kernel, by decide⟩
/-- A command that nests no scopes and one that does, begun at the saturated depth (R255): one `EndScope` uncounted by
its `BeginScope`, and two. -/
theorem witness_InsideScope_saturated :
    after (.drawLine 0 0 1 0) { open84 with batchDepth := 255 } (fun t => t.batchDepth = 254) = true ∧
    after (.drawTriangle 0 0 1 0 0 1) { open84 with batchDepth := 255 } (fun t => t.batchDepth = 253) = true ∧
    after (.fillTriangle 0 0 1 0 0 1) { open84 with batchDepth := 254 } (fun t => t.batchDepth = 253) = true := by
  decide +kernel
/-- A glyph of the example table with a set bit nests at size 2 and not at size 1. -/
theorem witness_glyphNests : glyphNests (disp 8 4) 0x41 2 ∧ ¬ glyphNests (disp 8 4) 0x41 1 :=
  ⟨⟨by decide, 0, 2, by decide⟩, fun h => absurd h.1 (by decide)⟩
theorem witness_DrawCircleSetsTheMidpointOutline : (0 : Int) = 0 ∧ (-1 : Int) < 0 := by decide
/-- The closed form gives the 12 pixels of T62, here about (3, 3), and no others around them. -/
theorem test_onCircle : ∀ a ∈ List.range 7, ∀ b ∈ List.range 7,
    onCircle 3 3 2 a b ↔ (a, b) ∈ [(1, 2), (1, 3), (1, 4), (2, 1), (2, 5), (3, 1), (3, 5), (4, 1), (4, 5), (5, 2), (5, 3),
      (5, 4)] := by
  unfold onCircle nearCircle
  decide +kernel
theorem witness_CircleIsASymmetricOutline : ((7 : Int) + 1, (7 : Int) + 3) ∈ circlePoints 7 7 3 := by decide
theorem witness_FillTriangleSetsTwoPasses : (3 : Int) = 3 ∧ (3 : Int) = 3 := by decide
theorem witness_EdgeXTruncatesTowardZero : ((0, 0) : Point).2 < ((-3, 5) : Point).2 := by decide
theorem witness_DrawCharPaintsSetGlyphBits :
    0x1F < 0x20 ∧ 0x7E < 0x7F ∧ (0x20 ≤ 0x20 ∧ 0x20 ≤ 0x7E) ∧ (0x20 ≤ 0x7E ∧ 0x7E ≤ 0x7E) := by decide
theorem witness_SpaceIsBlank :
    (cleared 8 4).Inv ∧ ¬ scopeOpen (cleared 8 4) ∧ (cleared 8 4).dirty = false ∧ (cleared 8 4).forceUpdate = false :=
  ⟨witness_inv_closed.1, by decide, by decide, by decide⟩
theorem witness_SetCursorAndTextSize :
    (coordOk (-32768) ∧ coordOk 32767) ∧ byteOk 0 ∧ byteOk 255 := by decide
theorem witness_PrintCommitsOnce :
    (cleared 8 4).Inv ∧ ¬ scopeOpen (cleared 8 4) ∧ 0 < (printCommands []).length ∧ 3 < (printCommands [0x41, 0x42]).length :=
  ⟨witness_inv_closed.1, by decide, by decide, by decide⟩
theorem witness_WriteDrawsAndAdvances :
    byteOk 0x0A ∧ byteOk 0x0D ∧ (byteOk 0xFF ∧ 0x7E < 0xFF) ∧ (byteOk 0x1F ∧ 0x1F < 0x20) ∧
      (byteOk 0x7E ∧ 0x7E ≠ 0x0A ∧ 0x7E ≠ 0x0D ∧ 0x20 ≤ 0x7E) := by decide

end Sys2Proof.Tests
end

section
/-! The family of the state: the rows of the reset table (R45), the fields of `STATUS` (R43), and the invariant of
`Safety.lean` with the parameters fixed (R25): each operation keeps both, so each command does, so each step does. -/

namespace Sys2Proof.Machine

/-! ## The reset table -/

/-- A dimension in the range of R8 fits the 16-bit field that reports it. -/
theorem toNat_ofNat_dimension {n : Nat} (h : n ≤ 32767) : (BitVec.ofNat 16 n).toNat = n := by
  rw [BitVec.toNat_ofNat, Nat.mod_eq_of_lt (by omega)]

/-- Settles O15: every row is the field `State.resetWith` writes; an empty memory reads 0x00 everywhere, and the
reported geometry is not truncated because the parameters are in range. -/
theorem resetStateIsTheResetTable : Obligations.ResetStateIsTheResetTable := by
  rintro p ⟨-, hw, -, hh, -⟩
  exact ⟨rfl, read_nil, read_nil, rfl, rfl, rfl, fun hopen => hopen rfl, rfl, rfl, rfl, rfl, rfl, rfl,
    toNat_ofNat_dimension hw, toNat_ofNat_dimension hh, rfl, rfl, rfl⟩

/-! ## STATUS -/

/-- The type bit is set exactly for the grayscale tag. -/
theorem typeBit_eq (t : DisplayType) : typeBit t = decide (t = .grayscale) := by cases t <;> rfl

@[simp] theorem busRead_status (s : State) : busRead s 0x008 = statusWord s := rfl

theorem statusWord_flagBits (s : State) :
    (statusWord s).getLsbD 0 = s.dirty ∧ (statusWord s).getLsbD 1 = s.forceUpdate ∧
    (statusWord s).getLsbD 2 = decide (scopeOpen s) ∧ (statusWord s).getLsbD 3 = s.throttleUpdates ∧
    (statusWord s).getLsbD 4 = s.inverted ∧ (statusWord s).getLsbD 7 = typeBit s.cfg.type ∧
    (statusWord s).getLsbD 16 = !s.decodeLatch.isEmpty := by
  simp only [statusWord, BitVec.getLsbD_append]
  simp

theorem statusWord_rotation (s : State) : (statusWord s).extractLsb' 5 2 = s.rotation := by
  refine BitVec.eq_of_getLsbD_eq fun i hi => ?_
  simp (disch := omega) only [statusWord, BitVec.getLsbD_extractLsb', BitVec.getLsbD_append, hi, decide_true,
    Bool.true_and, if_neg, if_pos]
  congr 1; omega

theorem statusWord_batchDepth (s : State) : (statusWord s).extractLsb' 8 8 = s.batchDepth := by
  refine BitVec.eq_of_getLsbD_eq fun i hi => ?_
  simp (disch := omega) only [statusWord, BitVec.getLsbD_extractLsb', BitVec.getLsbD_append, hi, decide_true,
    Bool.true_and, if_neg, if_pos]
  congr 1; omega

theorem statusWord_reserved (s : State) : (statusWord s).extractLsb' 17 15 = 0 := by
  refine BitVec.eq_of_getLsbD_eq fun i hi => ?_
  simp (disch := omega) only [statusWord, BitVec.getLsbD_extractLsb', BitVec.getLsbD_append, if_neg,
    BitVec.ofNat_eq_ofNat, BitVec.getLsbD_zero, Bool.and_false]

/-- After reset only the throttle flag is set and, for the grayscale tag, the type bit (R43, R45). -/
theorem statusWord_resetWith (p : Params) :
    statusWord (State.resetWith p) = if p.type = .grayscale then 0x00000088 else 0x00000008 := by
  cases h : p.type <;> simp [statusWord, State.resetWith, typeBit, h]

/-! ## One step, input by input -/

theorem step_idle {s : State} (h : s.inputs = []) : step s = .next s := by
  simp only [step, serveNext, h]

/-- A word written to `CMD` is offered to the decoder. -/
theorem step_command {s : State} {v : Word} {rest : List Input} (h : s.inputs = .write 0x000 4 v :: rest) :
    step s = acceptWord v { s with inputs := rest } := by
  simp [step, serveNext, h, serve, busWrite]

/-- A write to any other offset is ignored (R71). -/
theorem step_ignoredWrite {s : State} {offset : Nat} {v : Word} {rest : List Input}
    (h : s.inputs = .write offset 4 v :: rest) (ha : offset % 4 = 0) (h0 : offset ≠ 0x000) :
    step s = .next { s with inputs := rest } := by
  simp [step, serveNext, h, serve, busWrite, ha, h0]

theorem step_read {s : State} {offset : Nat} {rest : List Input}
    (h : s.inputs = .read offset 4 :: rest) (ha : offset % 4 = 0) :
    step s = .next { s with inputs := rest, readData := s.readData ++ [busRead s offset] } := by
  rw [step, serveNext, h]
  exact if_pos ⟨ha, rfl⟩

theorem step_clock {s : State} {now : Time} {rest : List Input} (h : s.inputs = .clock now :: rest) :
    step s = .next { s with now := now, inputs := rest } := by
  simp only [step, serveNext, h, serve]

theorem step_reset {s : State} {rest : List Input} (h : s.inputs = .reset :: rest) :
    step s = .next (resetInput { s with inputs := rest }) := by
  simp only [step, serveNext, h, serve]

/-- An access outside the interface is refused (R74). -/
theorem step_outside {s : State} {offset size : Nat} {v : Word} {rest : List Input} (ha : ¬ accessDefined offset size)
    (h : s.inputs = .write offset size v :: rest ∨ s.inputs = .read offset size :: rest) :
    step s = .refused (.accessOutsideInterface offset size) := by
  rcases h with h | h <;> simp only [step, serveNext, h, serve, if_neg ha]

/-- The ways a step can answer a next state: one for each kind of input the engine takes. -/
inductive StepCase (s : State) : State → Prop where
  | idle : s.inputs = [] → StepCase s s
  | command {v : Word} {rest : List Input} {t : State} : s.inputs = .write 0x000 4 v :: rest →
      acceptWord v { s with inputs := rest } = .next t → StepCase s t
  | ignoredWrite {offset : Nat} {v : Word} {rest : List Input} : s.inputs = .write offset 4 v :: rest →
      offset % 4 = 0 → offset ≠ 0x000 → StepCase s { s with inputs := rest }
  | read {offset : Nat} {rest : List Input} : s.inputs = .read offset 4 :: rest → offset % 4 = 0 →
      StepCase s { s with inputs := rest, readData := s.readData ++ [busRead s offset] }
  | clock {now : Time} {rest : List Input} : s.inputs = .clock now :: rest →
      StepCase s { s with now := now, inputs := rest }
  | reset {rest : List Input} : s.inputs = .reset :: rest → StepCase s (resetInput { s with inputs := rest })

/-- Everything a step that answers a next state can have done. -/
theorem step_cases {s t : State} (h : step s = .next t) : StepCase s t := by
  match hin : s.inputs with
  | [] =>
    cases (step_idle hin).symm.trans h
    exact .idle hin
  | .write offset size v :: rest =>
    by_cases ha : accessDefined offset size
    · obtain ⟨ha, rfl⟩ := ha
      by_cases h0 : offset = 0x000
      · subst h0
        exact .command hin ((step_command hin).symm.trans h)
      · cases (step_ignoredWrite hin ha h0).symm.trans h
        exact .ignoredWrite hin ha h0
    · cases (step_outside ha (.inl hin)).symm.trans h
  | .read offset size :: rest =>
    by_cases ha : accessDefined offset size
    · obtain ⟨ha, rfl⟩ := ha
      cases (step_read hin ha).symm.trans h
      exact .read hin ha
    · cases (step_outside (v := 0) ha (.inr hin)).symm.trans h
  | .clock now :: rest =>
    cases (step_clock hin).symm.trans h
    exact .clock hin
  | .reset :: rest =>
    cases (step_reset hin).symm.trans h
    exact .reset hin

/-- Everything the arrival of a word can do (R99, R104). -/
theorem acceptWord_cases (v : Word) (s : State) :
    (∃ i, acceptWord v s = exec i { s with decodeLatch := [] }) ∨
    acceptWord v s = .next { s with decodeLatch := [] } ∨
    (commandComplete (s.decodeLatch ++ [v]) = false ∧
      acceptWord v s = .next { s with decodeLatch := s.decodeLatch ++ [v] }) := by
  unfold acceptWord
  cases hd : decode (s.decodeLatch ++ [v]) with
  | instr i rest => exact .inl ⟨i, rfl⟩
  | reserved opc rest => exact .inr (.inl rfl)
  | incomplete => exact .inr (.inr ⟨(decode_incomplete_iff _).1 hd, rfl⟩)

/-- Settles O25: the fields one by one, the value after reset, and a write at an offset other than `CMD`. -/
theorem statusFields : Obligations.StatusFields := by
  refine ⟨fun s => ?_, fun p => ?_, fun s rest v h => step_ignoredWrite h rfl (by decide)⟩
  · obtain ⟨hdirty, hforce, hbatch, hthrottle, hinverted, htype, hpartial⟩ := statusWord_flagBits s
    refine ⟨hdirty, hforce, hbatch, hthrottle, hinverted, statusWord_rotation s, ?_, statusWord_batchDepth s, ?_,
      statusWord_reserved s⟩
    · rw [busRead_status, htype, typeBit_eq]
    · rw [busRead_status, hpartial]
      cases s.decodeLatch <;> rfl
  · rw [busRead_status, statusWord_resetWith]
    cases p.type <;> rfl

/-! ## What each operation keeps: the parameters, and the invariant -/

/-- From `s` to `t` the parameters are the same and the invariant is not lost. -/
structure Keeps (s t : State) : Prop where
  cfg : t.cfg = s.cfg
  inv : s.Inv → t.Inv

theorem Keeps.refl (s : State) : Keeps s s := ⟨rfl, id⟩

theorem Keeps.trans {s t u : State} (h : Keeps s t) (k : Keeps t u) : Keeps s u :=
  ⟨k.cfg.trans h.cfg, k.inv ∘ h.inv⟩

/-- The registers and logs that the invariant does not speak of may take any value. -/
theorem keeps_freeRegisters (s : State) (forceUpdate throttleUpdates inverted resp : Bool) (cursorX cursorY : Half)
    (now : Time) (inputs : List Input) (readData : List Word) :
    Keeps s { s with forceUpdate, throttleUpdates, inverted, resp, cursorX, cursorY, now, inputs, readData } :=
  ⟨rfl, fun hs => { hs with }⟩

theorem keeps_setTextSize (s : State) {size : Byte} (h : size ≠ 0) : Keeps s { s with textSize := size } :=
  ⟨rfl, fun hs => { hs with textSize := h }⟩

theorem keeps_setLatch (s : State) {ws : List Word} (h : commandComplete ws = false) :
    Keeps s { s with decodeLatch := ws } :=
  ⟨rfl, fun hs => { hs with latch := h }⟩

/-- The invariant at reset, for all parameters in range: both buffers are empty. -/
theorem resetWith_inv {p : Params} (hp : p.wf) : (State.resetWith p).Inv where
  cfg := hp
  buffer := ⟨⟨.nil, nofun⟩, nofun⟩
  backBuffer := ⟨⟨.nil, nofun⟩, nofun⟩
  textSize := (by decide : (1 : Byte) ≠ 0)
  geometry := ⟨by simp, by simp⟩
  clean := fun _ _ => rfl
  latch := rfl
  events := nofun

theorem keeps_resetInput (s : State) : Keeps s (resetInput s) :=
  ⟨rfl, fun hs => { resetWith_inv hs.cfg with events := hs.events }⟩

/-! ### Scopes and drawing -/

theorem keeps_beginScope (s : State) : Keeps s (beginScope s) := by
  by_cases ho : scopeOpen s
  · rw [beginScope_open ho]
    exact ⟨rfl, fun hs => { hs with clean := fun _ => hs.clean ho }⟩
  · rw [beginScope_idle (not_not.1 ho)]
    exact ⟨rfl, fun hs => { hs with backBuffer := hs.buffer, clean := fun _ _ => rfl }⟩

theorem keeps_endScope (s : State) : Keeps s (endScope s) := by
  by_cases ho : scopeOpen s
  · by_cases h1 : s.batchDepth = 1
    · rw [endScope_outermost h1]
      exact ⟨(commitScope_control _).cfg, fun hs => commitScope_inv hs hs.backBuffer s.dirty⟩
    · rw [endScope_inner ho h1]
      exact ⟨rfl, fun hs => { hs with clean := fun _ => hs.clean ho }⟩
  · rw [endScope_closed (not_not.1 ho)]
    exact .refl s

/-- A procedure that draws in a scope of its own touches no register but those of drawing. -/
theorem inScope_control {s : State} {points : List Point} {on : Bool} {nests : Prop} {body : State → State}
    (hb : DrawsOpen s.cfg points on nests body) : SameControl s (inScope body s) := by
  by_cases ho : scopeOpen s
  · obtain ⟨d, he, -⟩ := inScope_cases_open hb ho
    rw [he]
    constructor <;> rfl
  · rw [inScope_cases_idle hb (not_not.1 ho)]
    exact SameControl.trans (by constructor <;> rfl) (commitScope_control _)

theorem overwriteBack_control (f : State → Nat → Byte) (s : State) : SameControl s (overwriteBack f s) := by
  by_cases ho : scopeOpen s
  · rw [overwriteBack_open f ho]
    constructor <;> rfl
  · rw [overwriteBack_idle f (not_not.1 ho)]
    exact SameControl.trans (by constructor <;> rfl) (commitScope_control _)

theorem keeps_inScope {s : State} {points : List Point} {on : Bool} {nests : Prop} {body : State → State}
    (hb : DrawsOpen s.cfg points on nests body) : Keeps s (inScope body s) :=
  ⟨(inScope_control hb).cfg, fun hs => inScope_inv hs hb⟩

theorem keeps_drawPoints (points : List Point) (on : Bool) (s : State) : Keeps s (drawPoints points on s) :=
  keeps_inScope (drawsOpen_plot s.cfg points on)

theorem keeps_overwriteBack (f : State → Nat → Byte) (s : State) : Keeps s (overwriteBack f s) :=
  ⟨(overwriteBack_control f s).cfg, fun hs => overwriteBack_inv hs f⟩

theorem keeps_drawGlyph (x y : Int) (c : Nat) (color : Bool) (size : Nat) (s : State) :
    Keeps s (drawGlyph x y c color size s) := by
  unfold drawGlyph
  split
  · exact keeps_inScope (drawsOpen_glyph s.cfg x y c color size)
  · exact .refl s

/-! ### One pixel -/

/-- The event of a flush after a direct write carries the front buffer. -/
theorem keeps_flushDirect {s : State} (ho : ¬ scopeOpen s) : Keeps s (flushDirect s) := by
  rcases flushDirect_cases s with ⟨-, -, he⟩ | ⟨-, he⟩ <;> rw [he]
  · refine ⟨rfl, fun hs => { hs with clean := fun h => absurd h ho, events := fun e h => ?_ }⟩
    rcases List.mem_append.1 h with h | h
    · exact hs.events e h
    · rw [List.mem_singleton.1 h]
      exact hs.buffer
  · exact .refl s

theorem keeps_setPixel (x y : Int) (on : Bool) (s : State) : Keeps s (setPixel x y on s) := by
  by_cases hr : inRange s.cfg x y
  · have hbyte := bitIndex_div_lt hr
    by_cases ho : scopeOpen s
    · rw [setPixel_open hr ho]
      exact ⟨rfl, fun hs => { hs with backBuffer := setBit_ok hs.backBuffer hbyte on, clean := nofun }⟩
    · rw [setPixel_direct hr ho]
      have hwrite : Keeps s { s with buffer := s.buffer.setBit (bitIndex s.cfg x y) on, dirty := true } :=
        ⟨rfl, fun hs => { hs with buffer := setBit_ok hs.buffer hbyte on, clean := fun h => absurd h ho }⟩
      exact hwrite.trans (keeps_flushDirect ho)
  · rw [setPixel_off hr]
    exact .refl s

/-! ### Commands that set registers -/

/-- The geometry is written by the formula of R35, so it holds of the rotation written with it. -/
theorem execSetRotation_keeps (r : Nat) (s : State) : ∃ t, execSetRotation r s = .next t ∧ Keeps s t := by
  refine ⟨_, rfl, rfl, fun hs => { hs with geometry := ⟨?_, ?_⟩ }⟩
  all_goals exact (apply_ite (BitVec.ofNat 16) _ _ _).symm

theorem execSetTextSize_keeps (size : Nat) (s : State) : ∃ t, execSetTextSize size s = .next t ∧ Keeps s t := by
  refine ⟨_, rfl, keeps_setTextSize s ?_⟩
  split
  · decide
  · assumption

theorem execInvert_keeps (flag : Bool) (s : State) : ∃ t, execInvert flag s = .next t ∧ Keeps s t := by
  unfold execInvert
  split
  · exact ⟨_, rfl, .refl s⟩
  · exact ⟨_, rfl, .trans (keeps_freeRegisters s ..) (keeps_overwriteBack _ _)⟩

theorem execWrite_keeps (c : Nat) (s : State) : ∃ t, execWrite c s = .next t ∧ Keeps s t := by
  unfold execWrite
  split
  · exact ⟨_, rfl, keeps_freeRegisters s ..⟩
  · split
    · exact ⟨_, rfl, .refl s⟩
    · exact ⟨_, rfl, .trans (keeps_drawGlyph ..) (keeps_freeRegisters _ ..)⟩

/-! ## Every command and every step -/

/-- Every command answers a next state (R210) with the same parameters, in which the invariant is not lost. -/
theorem exec_keeps (i : Instr) (s : State) : ∃ t, exec i s = .next t ∧ Keeps s t := by
  cases i with
  | beginUpdate => exact ⟨_, rfl, keeps_beginScope s⟩
  | endUpdate => exact ⟨_, rfl, keeps_endScope s⟩
  | setForceUpdate flag => exact ⟨_, rfl, keeps_freeRegisters s ..⟩
  | needsUpdate => exact ⟨_, rfl, keeps_freeRegisters s ..⟩
  | setThrottle flag => exact ⟨_, rfl, keeps_freeRegisters s ..⟩
  | invert flag => exact execInvert_keeps flag s
  | clear => exact ⟨_, rfl, keeps_overwriteBack _ s⟩
  | fill => exact ⟨_, rfl, keeps_overwriteBack _ s⟩
  | setRotation r => exact execSetRotation_keeps r s
  | setTextSize size => exact execSetTextSize_keeps size s
  | write c => exact execWrite_keeps c s
  | setPixel x y on => exact ⟨_, rfl, keeps_setPixel x y on s⟩
  | getPixel x y => exact ⟨_, rfl, keeps_freeRegisters s ..⟩
  | setCursor x y => exact ⟨_, rfl, keeps_freeRegisters s ..⟩
  | drawChar x y c color size => exact ⟨_, rfl, keeps_drawGlyph x y c color size s⟩
  | drawBox x y w h on => exact ⟨_, rfl, keeps_drawPoints _ on s⟩
  | drawRect x y w h => exact ⟨_, rfl, keeps_drawPoints _ true s⟩
  | drawLine x0 y0 x1 y1 => exact ⟨_, rfl, keeps_drawPoints _ true s⟩
  | drawHLine x y w => exact ⟨_, rfl, keeps_drawPoints _ true s⟩
  | drawVLine x y h => exact ⟨_, rfl, keeps_drawPoints _ true s⟩
  | drawCircle x0 y0 r => exact ⟨_, rfl, keeps_drawPoints _ true s⟩
  | fillCircle x0 y0 r => exact ⟨_, rfl, keeps_drawPoints _ true s⟩
  | drawTriangle x0 y0 x1 y1 x2 y2 => exact ⟨_, rfl, keeps_inScope (drawsOpen_threeLines s.cfg x0 y0 x1 y1 x2 y2)⟩
  | fillTriangle x0 y0 x1 y1 x2 y2 => exact ⟨_, rfl, keeps_inScope (drawsOpen_triangleRuns s.cfg _ _ _)⟩
  | drawXbm x y w h bitmap => exact ⟨_, rfl, keeps_drawPoints _ true s⟩

theorem acceptWord_keeps {v : Word} {s t : State} (h : acceptWord v s = .next t) : Keeps s t := by
  rcases acceptWord_cases v s with ⟨i, he⟩ | he | ⟨hc, he⟩ <;> rw [he] at h
  · obtain ⟨u, hu, hk⟩ := exec_keeps i { s with decodeLatch := [] }
    cases hu.symm.trans h
    exact .trans (keeps_setLatch s rfl) hk
  · cases h
    exact keeps_setLatch s rfl
  · cases h
    exact keeps_setLatch s hc

theorem step_keeps {s t : State} (h : step s = .next t) : Keeps s t := by
  cases step_cases h with
  | idle => exact .refl s
  | command _ hw => exact .trans (keeps_freeRegisters s ..) (acceptWord_keeps hw)
  | ignoredWrite => exact keeps_freeRegisters s ..
  | read => exact keeps_freeRegisters s ..
  | clock => exact keeps_freeRegisters s ..
  | reset => exact .trans (keeps_freeRegisters s ..) (keeps_resetInput _)

/-- Settles O14: a step keeps the parameters, and the invariant after it says that both buffers have the size they give. -/
theorem geometryNeverChanges : Obligations.GeometryNeverChanges := by
  intro s t h
  obtain ⟨hcfg, hinv⟩ := step_keeps h
  refine ⟨hcfg, fun hs => ?_⟩
  rw [← hcfg]
  exact ⟨(hinv hs).buffer, (hinv hs).backBuffer⟩

end Sys2Proof.Machine
end

section
/-! The family of the memory: the words of the framebuffer window (R73), and reads and ignored writes at the slave
interface (R71). -/

namespace Sys2Proof.Machine

/-! ## The framebuffer window -/

/-- The byte that the window shows at byte offset `i`: the front buffer's, 0x00 from `NBYTES` on (R73). -/
def windowByte (s : State) (i : Nat) : Byte := if i < s.cfg.nbytes then s.buffer.read i else 0

theorem windowByte_of_lt {s : State} {i : Nat} (h : i < s.cfg.nbytes) : windowByte s i = s.buffer.read i := if_pos h

theorem windowByte_of_le {s : State} {i : Nat} (h : s.cfg.nbytes ≤ i) : windowByte s i = 0 := if_neg (not_lt.2 h)

theorem windowWord_eq (s : State) (a : Nat) :
    windowWord s a = windowByte s (a + 3) ++ windowByte s (a + 2) ++ windowByte s (a + 1) ++ windowByte s a := rfl

/-- Bit `8j + b` of a window word is bit `b` of its byte `j`, the lowest byte first (R68). -/
theorem windowWord_getLsbD (s : State) (a : Nat) {j b : Nat} (hj : j < 4) (hb : b < 8) :
    (windowWord s a).getLsbD (8 * j + b) = (windowByte s (a + j)).getLsbD b := by
  rw [windowWord_eq]
  interval_cases j <;> simp (disch := omega) only [BitVec.getLsbD_append, if_pos, if_neg] <;> congr 1 <;> omega

/-- A window word past the buffer's bytes is 0. -/
theorem windowWord_of_le {s : State} {a : Nat} (h : s.cfg.nbytes ≤ a) : windowWord s a = 0 := by
  simp (disch := omega) only [windowWord_eq, windowByte_of_le]
  rfl

/-! ## Reads -/

/-- No register stands at or above 0x030: there is the window from 0x1000 on, and below it nothing (R71, R73). -/
theorem busRead_of_le {s : State} {a : Nat} (h : 0x030 ≤ a) :
    busRead s a = if 0x1000 ≤ a then windowWord s (a - 0x1000) else 0 := by
  obtain ⟨n, rfl⟩ := Nat.exists_eq_add_of_le' h
  rfl

theorem busRead_window (s : State) (a : Nat) : busRead s (0x1000 + a) = windowWord s a := by
  rw [busRead_of_le (by omega), if_pos (by omega), Nat.add_sub_cancel_left]

/-- No register and no window word shows the clock, the inputs to come or the reads so far. -/
theorem busRead_interface (s : State) (offset : Nat) (now : Time) (inputs : List Input) (readData : List Word) :
    busRead { s with now, inputs, readData } offset = busRead s offset := rfl

/-! ## Steps in a row -/

@[simp] theorem stepN_zero (s : State) : stepN 0 s = .next s := rfl

theorem stepN_succ_of_step {s t : State} (n : Nat) (h : step s = .next t) : stepN (n + 1) s = stepN n t := by
  simp only [stepN, h]

/-! ## The window and the reads of the interface -/

/-- Settles O26: bit `m` lies in byte `m / 8` of the word, that is in byte `(32k + m) / 8` of the front buffer, which the
window shows below `NBYTES`. -/
theorem windowShowsTheFrontBuffer : Obligations.WindowShowsTheFrontBuffer := by
  intro s k m hm
  have hbyte : (32 * k + m) / 8 = 4 * k + m / 8 := by omega
  have hbit : (32 * k + m) % 8 = m % 8 := by omega
  have hword : (busRead s (0x1000 + 4 * k)).getLsbD m = (windowByte s ((32 * k + m) / 8)).getLsbD (m % 8) := by
    rw [busRead_window, hbyte, ← windowWord_getLsbD s (4 * k) (by omega) (Nat.mod_lt m (by decide)), Nat.div_add_mod]
  rw [hword, hbit]
  split
  · rw [windowByte_of_lt (by omega)]
  · rw [windowByte_of_le (by omega)]
    exact BitVec.getLsbD_zero

/-- Settles O23: the steps of a read, a clock change and an ignored write are known one by one, and neither the clock nor
the log of reads is anything a second read could show; the last clause goes by the three kinds of offset. -/
theorem readsHaveNoSideEffect : Obligations.ReadsHaveNoSideEffect := by
  refine ⟨fun s rest offset ho h => step_read h ho, fun s rest offset ho h => ?_, fun s rest offset now ho h => ?_,
    fun s rest offset v ho h0 h => step_ignoredWrite h ho h0, fun s offset _ ho => ?_⟩
  · rw [stepN_succ_of_step 1 (step_read h ho), stepN_succ_of_step 0 (step_read rfl ho)]
    simp [busRead_interface]
  · rw [stepN_succ_of_step 2 (step_read h ho), stepN_succ_of_step 1 (step_clock rfl),
      stepN_succ_of_step 0 (step_read rfl ho)]
    simp [busRead_interface]
  · rcases ho with rfl | ⟨hlo, hhi⟩ | hpast
    · rfl
    · rw [busRead_of_le hlo, if_neg (by omega)]
    · rw [busRead_of_le (by omega), if_pos (by omega)]
      exact windowWord_of_le (by omega)

end Sys2Proof.Machine
end

section
/-! The family of the encoding: the length of a command (R95), the words of one command arriving at the port (R90,
R104), and the reserved opcodes (R99). -/

namespace Sys2Proof

/-! ## The length rule in bits of the header and of W2 -/

theorem opcodePL_headerOpc (h : Word) : opcodePL (headerOpc h) = h.getLsbD 31 := by
  simp [opcodePL, headerOpc]

theorem opcodeNW_headerOpc (h : Word) : opcodeNW (headerOpc h) = ((h >>> 28) &&& 7#32).toNat := by
  have hNW : (headerOpc h).extractLsb' 4 3 = (h >>> 28).setWidth 3 := by
    refine BitVec.eq_of_getLsbD_eq fun i hi => ?_
    have hi8 : 4 + i < 8 := by omega
    simp [headerOpc, hi, hi8, ← Nat.add_assoc]
  rw [opcodeNW, hNW, BitVec.toNat_setWidth, BitVec.toNat_and]
  exact (Nat.and_two_pow_sub_one_eq_mod _ 3).symm

theorem operandLo_eq (w : Word) : operandLo w = (w.setWidth 16).toInt := by
  have hlo : w.extractLsb' 0 16 = w.setWidth 16 := BitVec.eq_of_getLsbD_eq fun i hi => by simp [hi]
  rw [operandLo, hlo]

theorem operandHi_eq (w : Word) : operandHi w = ((w >>> 16).setWidth 16).toInt := by
  have hhi : w.extractLsb' 16 16 = (w >>> 16).setWidth 16 := BitVec.eq_of_getLsbD_eq fun i hi => by simp [hi]
  rw [operandHi, hhi]

theorem commandLength_of_no_payload {h : Word} (ops : List Word)
    (hp : opcodePL (headerOpc h) = false ∨ opcodeNW (headerOpc h) < 2) :
    commandLength (h :: ops) = some (1 + opcodeNW (headerOpc h)) := by
  refine if_neg ?_
  rintro ⟨hPL, hNW⟩
  rcases hp with hp | hp
  · exact absurd hPL (by simp [hp])
  · omega

theorem commandLength_of_payload {h : Word} (w1 w2 : Word) (ops : List Word)
    (hPL : opcodePL (headerOpc h) = true) (hNW : 2 ≤ opcodeNW (headerOpc h)) :
    commandLength (h :: w1 :: w2 :: ops) = some (1 + opcodeNW (headerOpc h) + payloadWords w2) :=
  if_pos ⟨hPL, hNW⟩

/-- The formula of R96. -/
theorem payloadWords_eq (w2 : Word) :
    payloadWords w2 = if operandLo w2 ≤ 0 ∨ operandHi w2 ≤ 0 then 0
      else (((operandLo w2).toNat + 7) / 8 * (operandHi w2).toNat + 3) / 4 := by
  unfold payloadWords bitmapBytes bitmapStride
  split <;> rfl

/-- Settles O4: the two cases of `commandLength`, with its fields read as bits of the header and halves of W2. -/
theorem commandLengthFollowsHeaderAndW2 : Obligations.CommandLengthFollowsHeaderAndW2 := by
  refine ⟨fun h ops hp => ?_, fun h w1 w2 ops hPL hNW => ?_, rfl⟩
  · rw [← opcodePL_headerOpc, ← opcodeNW_headerOpc] at hp
    rw [← opcodeNW_headerOpc]
    exact commandLength_of_no_payload ops hp
  · rw [← opcodePL_headerOpc] at hPL
    rw [← opcodeNW_headerOpc] at hNW ⊢
    intro w ht
    rw [commandLength_of_payload w1 w2 ops hPL hNW, payloadWords_eq, operandLo_eq, operandHi_eq]

/-! ## The words that one decoding takes -/

theorem commandComplete_iff (ws : List Word) :
    commandComplete ws = true ↔ ∃ n, commandLength ws = some n ∧ n ≤ ws.length := by
  unfold commandComplete
  cases commandLength ws <;> simp

/-- What the decoder answers tells that the words of a command are all there. -/
theorem commandComplete_of_decode {ws : List Word} {i : Instr} {more : List Word} (h : decode ws = .instr i more) :
    commandComplete ws = true := by
  by_contra hc
  rw [(decode_incomplete_iff ws).2 (Bool.eq_false_of_not_eq_true hc)] at h
  cases h

/-- A decoded command that leaves no words over took all of them. -/
theorem commandLength_of_decode {ws : List Word} {i : Instr} (h : decode ws = .instr i []) :
    commandLength ws = some ws.length := by
  obtain ⟨n, hn, hle⟩ := (commandComplete_iff ws).1 (commandComplete_of_decode h)
  match ws with
  | [] => cases h
  | w :: ops =>
    have hpos := commandLength_pos hn
    have hleft : ops.drop (n - 1) = [] := by
      rw [decode_of_length hn hle] at h
      split at h
      · exact (Decoded.instr.inj h).2
      · cases h
    rw [List.drop_eq_nil_iff] at hleft
    rw [List.length_cons] at hle ⊢
    rw [hn, show n = ops.length + 1 by omega]

/-- The map of R98 gives a reserved opcode no command. -/
theorem decodeCommand_of_reserved {h : Word} (ops : List Word)
    (hr : headerOpc h ∉ Machine.assignedOpcodes) : decodeCommand h ops = none := by
  have hrow : ∀ n, (headerOpc h).toNat = n → BitVec.ofNat 8 n ∉ Machine.assignedOpcodes := by
    rintro _ rfl
    rwa [BitVec.ofNat_toNat, BitVec.setWidth_eq]
  unfold decodeCommand
  split
  case h_26 => rfl
  all_goals
    rename_i he
    exact absurd (by decide) (hrow _ he)

/-- A reserved opcode with exactly the words R95 gives it is decoded as a no-op, and no word is left over. -/
theorem decode_of_reserved {h : Word} {ops : List Word} (hr : headerOpc h ∉ Machine.assignedOpcodes)
    (hn : commandLength (h :: ops) = some (h :: ops).length) : decode (h :: ops) = .reserved (headerOpc h) [] := by
  rw [decode_of_length hn le_rfl, decodeCommand_of_reserved _ hr]
  simp

end Sys2Proof

namespace Sys2Proof.Machine

/-! ## The arrival of a word, by what it completes -/

theorem acceptWord_instr {v : Word} {s : State} {i : Instr} {more : List Word}
    (h : decode (s.decodeLatch ++ [v]) = .instr i more) : acceptWord v s = exec i { s with decodeLatch := [] } := by
  rw [acceptWord, h]

theorem acceptWord_reserved {v : Word} {s : State} {opc : Byte} {more : List Word}
    (h : decode (s.decodeLatch ++ [v]) = .reserved opc more) : acceptWord v s = .next { s with decodeLatch := [] } := by
  rw [acceptWord, h]

theorem acceptWord_incomplete {v : Word} {s : State} (h : commandComplete (s.decodeLatch ++ [v]) = false) :
    acceptWord v s = .next { s with decodeLatch := s.decodeLatch ++ [v] } := by
  rw [acceptWord, (decode_incomplete_iff _).2 h]

/-! ## The words of one command pushed one per step -/

theorem stepN_succ_last {s t : State} {n : Nat} (h : stepN n s = .next t) : stepN (n + 1) s = step t := by
  induction n generalizing s with
  | zero =>
    cases h
    cases hs : step t <;> simp [stepN, hs]
  | succ n ih =>
    cases hs : step s with
    | next u =>
      rw [stepN_succ_of_step n hs] at h
      rw [stepN_succ_of_step (n + 1) hs, ih h]
    | fault r => simp [stepN, hs] at h
    | refused r => simp [stepN, hs] at h

theorem pushWords_cons (w : Word) (ws : List Word) : pushWords (w :: ws) = .write 0x000 4 w :: pushWords ws := rfl

section
variable {s : State} {ws : List Word} {rest : List Input}

/-- The state in which `k` of the words have been latched and the others are still to come. -/
def latched (s : State) (ws : List Word) (rest : List Input) (k : Nat) : State :=
  { s with decodeLatch := ws.take k, inputs := pushWords (ws.drop k) ++ rest }

theorem latched_zero (hlatch : s.decodeLatch = []) (hin : s.inputs = pushWords ws ++ rest) :
    latched s ws rest 0 = s := by
  cases s
  cases hlatch
  cases hin
  rfl

/-- The next word offered to the decoder joins the `k` before it. -/
theorem step_latched {k : Nat} (hk : k < ws.length) :
    step (latched s ws rest k) =
      acceptWord ws[k] { s with decodeLatch := ws.take k, inputs := pushWords (ws.drop (k + 1)) ++ rest } := by
  have hin : (latched s ws rest k).inputs = .write 0x000 4 ws[k] :: (pushWords (ws.drop (k + 1)) ++ rest) := by
    rw [latched, List.drop_eq_getElem_cons hk, pushWords_cons, List.cons_append]
  exact step_command hin

/-- Until the last word arrives, the words of a command only fill the latch (R104). -/
theorem stepN_latches (hlen : commandLength ws = some ws.length) (hlatch : s.decodeLatch = [])
    (hin : s.inputs = pushWords ws ++ rest) {k : Nat} (hk : k < ws.length) :
    stepN k s = .next (latched s ws rest k) := by
  induction k with
  | zero => rw [latched_zero hlatch hin, stepN_zero]
  | succ k ih =>
    have hjoin : ws.take k ++ [ws[k]] = ws.take (k + 1) := List.take_append_getElem (by omega)
    have hwait : commandComplete (ws.take k ++ [ws[k]]) = false := hjoin ▸ commandComplete_prefix hlen hk
    rw [stepN_succ_last (ih (by omega)), step_latched (by omega), acceptWord_incomplete hwait, hjoin]
    rfl

/-- The last word is offered to the decoder with all the others in the latch. -/
theorem stepN_lastWord (hlen : commandLength ws = some ws.length) (hlatch : s.decodeLatch = [])
    (hin : s.inputs = pushWords ws ++ rest) :
    ∃ pre v, pre ++ [v] = ws ∧ stepN ws.length s = acceptWord v { s with decodeLatch := pre, inputs := rest } := by
  obtain ⟨n, hn⟩ := Nat.exists_eq_add_of_lt (commandLength_pos hlen)
  rw [Nat.zero_add] at hn
  have hlt : n < ws.length := by omega
  have hall : ws.take (n + 1) = ws := by rw [← hn, List.take_length]
  have hnone : ws.drop (n + 1) = [] := by rw [← hn, List.drop_length]
  refine ⟨ws.take n, ws[n], (List.take_append_getElem hlt).trans hall, ?_⟩
  rw [hn, stepN_succ_last (stepN_latches hlen hlatch hin hlt), step_latched hlt, hnone]
  rfl

end

/-- Settles O8: a decoded command has the length of its words, so while one is missing the decoder waits. -/
theorem commandExecutesWhenItsLastWordArrives : Obligations.CommandExecutesWhenItsLastWordArrives := by
  intro s i ws rest hd hlatch hin
  have hlen := commandLength_of_decode hd
  refine ⟨fun k hk => stepN_latches hlen hlatch hin hk, ?_⟩
  obtain ⟨pre, v, rfl, hlast⟩ := stepN_lastWord hlen hlatch hin
  rw [hlast, acceptWord_instr hd, hlatch]

/-- Settles O7: the opcodes are counted, and a reserved command's last word finds the decoder with all its words, which
it drops. -/
theorem reservedOpcodesAreNoOps : Obligations.ReservedOpcodesAreNoOps := by
  refine ⟨by decide +kernel, by decide, fun s h ops rest hr hlen hlatch hin => ?_⟩
  have hd := decode_of_reserved hr hlen
  obtain ⟨pre, v, hws, hlast⟩ := stepN_lastWord hlen hlatch hin
  rw [← hws] at hd
  rw [hlast, acceptWord_reserved hd, hlatch]

end Sys2Proof.Machine
end

section
/-! The family of the framebuffer store: one pixel (R120, R122), and opening and closing a batch scope (R124, R125). -/

namespace Sys2Proof.Machine

/-! ## One pixel -/

/-- R61 in integers. -/
theorem bitIndex_eq_toNat {p : Params} {x y : Int} (h : inRange p x y) : bitIndex p x y = (y * p.width + x).toNat := by
  obtain ⟨hx, -, hy, -⟩ := h
  lift x to ℕ using hx
  lift y to ℕ using hy
  exact (Int.toNat_natCast (y * p.width + x)).symm

/-- A bit write at a pixel on the display paints exactly that pixel. -/
theorem setBit_painted {p : Params} {x y : Int} (h : inRange p x y) {m : Memory} (hm : bufferOk p m) (on : Bool) :
    Painted p (fun a b => a = x ∧ b = y) on m (m.setBit (bitIndex p x y) on) := by
  have hpaint : paint p [(x, y)] on m = m.setBit (bitIndex p x y) on := if_pos h
  rw [← hpaint]
  exact paint_painted on hm fun a b _ => by simp

/-- A direct write leaves `dirty` set, so only the throttle decides whether its flush attempt fires (R120). -/
theorem flushDirect_written (s : State) (m : Memory) :
    (throttled s = false ∧ flushDirect { s with buffer := m, dirty := true } = { s with
      buffer := m, dirty := false, forceUpdate := false
      lastUpdateTime := s.now, events := s.events ++ [⟨s.now, m⟩] }) ∨
    (throttled s = true ∧
      flushDirect { s with buffer := m, dirty := true } = { s with buffer := m, dirty := true }) := by
  rcases flushDirect_cases { s with buffer := m, dirty := true } with ⟨-, ht, he⟩ | ⟨hclean | ht, he⟩
  · exact .inl ⟨ht, he⟩
  · simp [needsUpdate] at hclean
  · exact .inr ⟨ht, he⟩

/-- Settles O27: off the display, into the open scope, or direct with the flush fired or throttled. -/
theorem setPixelWritesOnePixel : Obligations.SetPixelWritesOnePixel := by
  intro s x y on hs
  refine ⟨setPixel x y on s, rfl, fun hr => setPixel_off hr on, fun hr => ?_⟩
  by_cases ho : scopeOpen s
  · have hback := setBit_painted hr hs.backBuffer on
    rw [setPixel_open hr ho]
    exact ⟨by constructor <;> rfl, rfl,
      fun _ => ⟨rfl, hback, rfl, rfl, nofun, fun _ => ⟨rfl, rfl⟩⟩, fun hc => absurd ho hc⟩
  · have hfront := setBit_painted hr hs.buffer on
    rw [setPixel_direct hr ho]
    rcases flushDirect_written s (s.buffer.setBit (bitIndex s.cfg x y) on) with ⟨ht, he⟩ | ⟨ht, he⟩ <;> rw [he]
    · have hfires : ¬ throttled s = true := by simp [ht]
      exact ⟨by constructor <;> rfl, rfl, fun h => absurd h ho, fun _ => ⟨rfl, hfront,
        ⟨fun _ => ⟨rfl, rfl⟩, fun h => absurd ht h⟩, fun _ => ⟨rfl, rfl⟩, fun h => absurd h hfires⟩⟩
    · have hquiet : ¬ throttled s = false := by simp [ht]
      exact ⟨by constructor <;> rfl, rfl, fun h => absurd h ho, fun _ => ⟨rfl, hfront,
        ⟨fun h => absurd h hquiet, fun _ => ⟨rfl, rfl⟩⟩, fun h => absurd h hquiet, fun _ => ⟨rfl, rfl⟩⟩⟩

/-- Settles O28: on the display the bit index is `y*WIDTH + x`, and the front buffer's bit there is the answer. -/
theorem getPixelReadsTheFrontBuffer : Obligations.GetPixelReadsTheFrontBuffer := by
  intro s x y
  have hexec : exec (.getPixel x y) s = .next { s with resp := getPixel x y s } := rfl
  rw [hexec, getPixel]
  by_cases hr : inRange s.cfg x y
  · rw [if_pos hr, if_pos hr, bitIndex_eq_toNat hr]
    rfl
  · rw [if_neg hr, if_neg hr]

/-! ## Opening and closing a scope -/

/-- Below `MAX_DEPTH` the counter has room (R124). -/
theorem beginScope_inner {s : State} (ho : scopeOpen s) (h : s.batchDepth.toNat < 255) :
    beginScope s = { s with batchDepth := s.batchDepth + 1 } := by
  rw [beginScope_open ho, if_pos (BitVec.lt_def.2 h)]

/-- At `MAX_DEPTH` a further scope is not counted (R124). -/
theorem beginScope_saturated {s : State} (h : s.batchDepth.toNat = 255) : beginScope s = s := by
  have ho : scopeOpen s := fun h0 => by simp [h0] at h
  have hlt : ¬ s.batchDepth < maxDepth := fun hlt => by
    have : s.batchDepth.toNat < 255 := hlt
    omega
  rw [beginScope_open ho, if_neg hlt]

/-- Settles O30, by the three ranges of the depth; the byte counter does not wrap below 255. -/
theorem beginUpdateOpensAScope : Obligations.BeginUpdateOpensAScope := by
  intro s
  have hexec : exec .beginUpdate s = .next (beginScope s) := rfl
  rw [hexec]
  refine ⟨fun h => by rw [beginScope_idle h], fun hpos hlt => ?_, fun h => by rw [beginScope_saturated h]⟩
  have ho : scopeOpen s := fun h0 => by simp [h0] at hpos
  refine ⟨{ s with batchDepth := s.batchDepth + 1 }, by rw [beginScope_inner ho hlt], rfl, ?_⟩
  show (s.batchDepth + 1).toNat = s.batchDepth.toNat + 1
  bv_omega

/-- A commit with nothing pending changes nothing (R125). -/
theorem commitScope_clean {s : State} (hd : s.dirty = false) (hf : s.forceUpdate = false) : commitScope s = s := by
  cases s
  cases hd
  cases hf
  rfl

/-- A commit with a flag set swaps, and clears both flags whether or not its flush fires (R125, R127). -/
theorem commitScope_pending {s : State} (hn : needsUpdate s = true) :
    commitScope s = if throttled s then
        { s with buffer := s.backBuffer, backBuffer := s.buffer, dirty := false, forceUpdate := false }
      else
        { s with buffer := s.backBuffer, backBuffer := s.buffer, dirty := false, forceUpdate := false,
                 lastUpdateTime := s.now, events := s.events ++ [⟨s.now, s.backBuffer⟩] } := by
  rcases commitScope_cases s with ⟨-, ht, he⟩ | ⟨-, ht, he⟩ | ⟨hno, -⟩
  · rw [he, if_neg (by simp [ht])]
  · rw [he, if_pos ht]
  · simp [hn] at hno

/-- Settles O31, by the depth, and at the outermost close by the flags; the depth is no part of the throttle rule. -/
theorem endUpdateCommitsOnlyTheOutermostScope : Obligations.EndUpdateCommitsOnlyTheOutermostScope := by
  intro s
  have hexec : exec .endUpdate s = .next (endScope s) := rfl
  rw [hexec]
  refine ⟨fun h => by rw [endScope_closed h], fun hlt => ?_, fun h hd hf => ?_, fun h hflag => ?_⟩
  · have ho : scopeOpen s := fun h0 => by simp [h0] at hlt
    have h1 : s.batchDepth ≠ 1 := fun h1 => by simp [h1] at hlt
    refine ⟨{ s with batchDepth := s.batchDepth - 1 }, by rw [endScope_inner ho h1], rfl, ?_⟩
    show (s.batchDepth - 1).toNat = s.batchDepth.toNat - 1
    bv_omega
  · have hclean : commitScope { s with batchDepth := 0 } = { s with batchDepth := 0 } := commitScope_clean hd hf
    rw [endScope_outermost h, hclean]
  · have hn : needsUpdate { s with batchDepth := 0 } = true := (Bool.or_eq_true _ _).mpr hflag
    rw [endScope_outermost h, commitScope_pending hn]
    rfl

end Sys2Proof.Machine
end

section
/-! The family of the exceptions: the engine has none (R210). What completes is said of a command, of a word that
arrives at the port, and of a step. -/

namespace Sys2Proof.Machine

theorem exec_completes (i : Instr) (s : State) : ∃ t, exec i s = .next t :=
  (exec_keeps i s).imp fun _ => And.left

/-- A word that arrives at the port is latched or completes a command or a reserved opcode; nothing is refused. -/
theorem acceptWord_completes (v : Word) (s : State) : ∃ t, acceptWord v s = .next t := by
  rcases acceptWord_cases v s with ⟨i, he⟩ | he | ⟨-, he⟩
  · exact he ▸ exec_completes i _
  · exact ⟨_, he⟩
  · exact ⟨_, he⟩

/-- A write access inside the interface completes, at `CMD` as at any other offset (R71, R72). -/
theorem step_write_completes {s : State} {offset : Nat} {v : Word} {rest : List Input}
    (h : s.inputs = .write offset 4 v :: rest) (ha : offset % 4 = 0) : ∃ t, step s = .next t := by
  by_cases h0 : offset = 0x000
  · subst h0
    exact step_command h ▸ acceptWord_completes v _
  · exact ⟨_, step_ignoredWrite h ha h0⟩

/-- A step completes, or its input is an access outside the interface, which it refuses (R74, R210). -/
theorem step_completes_or_refuses_access (s : State) : (∃ t, step s = .next t) ∨
    ∃ offset size, ¬ accessDefined offset size ∧ step s = .refused (.accessOutsideInterface offset size) := by
  match hin : s.inputs with
  | [] => exact .inl ⟨_, step_idle hin⟩
  | .write offset size v :: rest =>
    by_cases ha : accessDefined offset size
    · obtain ⟨ha, rfl⟩ := ha
      exact .inl (step_write_completes hin ha)
    · exact .inr ⟨offset, size, ha, step_outside ha (.inl hin)⟩
  | .read offset size :: rest =>
    by_cases ha : accessDefined offset size
    · obtain ⟨ha, rfl⟩ := ha
      exact .inl ⟨_, step_read hin ha⟩
    · exact .inr ⟨offset, size, ha, step_outside (v := 0) ha (.inr hin)⟩
  | .clock now :: rest => exact .inl ⟨_, step_clock hin⟩
  | .reset :: rest => exact .inl ⟨_, step_reset hin⟩

/-- Settles O11: every command completes by what each of them does, `Fault` has no value, and a step goes by its input. -/
theorem everyCommandReturnsANextState : Obligations.EveryCommandReturnsANextState :=
  ⟨exec_completes, nofun, step_completes_or_refuses_access⟩

end Sys2Proof.Machine
end

section
/-! The encoding: decoding what was encoded (R91 to R98), the opcode map row by row (R98), the payload of a bitmap
(R96), the fields that are ignored (R100), and the step that a word makes (R104). -/

namespace Sys2Proof

/-! ## Decoding what was encoded -/

/-- The encoding of a well-formed command has the length R95 gives it. -/
theorem commandLength_encode (i : Instr) (hi : i.wf = true) : commandLength (encode i) = some (encode i).length := by
  revert hi
  cases i with
  | beginUpdate => exact Laws.EncodedLength.beginUpdate
  | endUpdate => exact Laws.EncodedLength.endUpdate
  | setForceUpdate => exact Laws.EncodedLength.setForceUpdate _
  | needsUpdate => exact Laws.EncodedLength.needsUpdate
  | setThrottle => exact Laws.EncodedLength.setThrottle _
  | invert => exact Laws.EncodedLength.invert _
  | clear => exact Laws.EncodedLength.clear
  | fill => exact Laws.EncodedLength.fill
  | setRotation => exact Laws.EncodedLength.setRotation _
  | setTextSize => exact Laws.EncodedLength.setTextSize _
  | write => exact Laws.EncodedLength.write _
  | setPixel => exact Laws.EncodedLength.setPixel _ _ _
  | getPixel => exact Laws.EncodedLength.getPixel _ _
  | setCursor => exact Laws.EncodedLength.setCursor _ _
  | drawChar => exact Laws.EncodedLength.drawChar _ _ _ _ _
  | drawBox => exact Laws.EncodedLength.drawBox _ _ _ _ _
  | drawRect => exact Laws.EncodedLength.drawRect _ _ _ _
  | drawLine => exact Laws.EncodedLength.drawLine _ _ _ _
  | drawHLine => exact Laws.EncodedLength.drawHLine _ _ _
  | drawVLine => exact Laws.EncodedLength.drawVLine _ _ _
  | drawCircle => exact Laws.EncodedLength.drawCircle _ _ _
  | fillCircle => exact Laws.EncodedLength.fillCircle _ _ _
  | drawTriangle => exact Laws.EncodedLength.drawTriangle _ _ _ _ _ _
  | fillTriangle => exact Laws.EncodedLength.fillTriangle _ _ _ _ _ _
  | drawXbm => exact Laws.EncodedLength.drawXbm _ _ _ _ _

/-- A command's words, as many as R95 says, are decoded by their row of the opcode map, whatever words follow. -/
theorem decode_append_of_row {h : Word} {ops : List Word} {i : Instr}
    (hlen : commandLength (h :: ops) = some (h :: ops).length) (hrow : decodeCommand h ops = some i)
    (rest : List Word) : decode (h :: ops ++ rest) = .instr i rest := by
  have hn : commandLength (h :: (ops ++ rest)) = some (ops.length + 1) := commandLength_append hlen rest
  rw [List.cons_append, decode_of_length hn (by simp), Nat.add_sub_cancel, List.take_left, List.drop_left, hrow]

theorem byte_mod {n : Nat} (h : byteOk n) : n % 256 = n := Nat.mod_eq_of_lt (by omega)

/-- The opcode map reads a well-formed command from the fields the encoder writes. -/
theorem decodeCommand_encode (i : Instr) (hi : i.wf = true) :
    decodeCommand ((encode i).headD 0) (encode i).tail = some i := by
  cases i with
  | beginUpdate | endUpdate | needsUpdate | clear | fill => rfl
  | setForceUpdate flag | setThrottle flag | invert flag => simp [encode, decodeCommand]
  | setRotation n | setTextSize n | write n =>
    simp [encode, decodeCommand, byte_mod (of_decide_eq_true hi)]
  | setPixel x y on | getPixel x y | setCursor x y =>
    obtain ⟨hx, hy⟩ := of_decide_eq_true hi
    simp [encode, decodeCommand, operandLo_makePair hx, operandHi_makePair hy]
  | drawChar x y c color size =>
    obtain ⟨hx, hy, hc, hsize⟩ := of_decide_eq_true hi
    simp [encode, decodeCommand, operandLo_makePair hx, operandHi_makePair hy, byte_mod hc, byte_mod hsize]
  | drawBox x y w h on | drawRect x y w h | drawLine x y w h =>
    obtain ⟨hx, hy, hw, hh⟩ := of_decide_eq_true hi
    simp [encode, decodeCommand, operandLo_makePair hx, operandHi_makePair hy, operandLo_makePair hw,
      operandHi_makePair hh]
  | drawHLine x y n | drawVLine x y n | drawCircle x y n | fillCircle x y n =>
    obtain ⟨hx, hy, hn⟩ := of_decide_eq_true hi
    simp [encode, decodeCommand, operandLo_makePair hx, operandHi_makePair hy, operandLo_makePair hn]
  | drawTriangle x0 y0 x1 y1 x2 y2 | fillTriangle x0 y0 x1 y1 x2 y2 =>
    obtain ⟨hx0, hy0, hx1, hy1, hx2, hy2⟩ := of_decide_eq_true hi
    simp [encode, decodeCommand, operandLo_makePair hx0, operandHi_makePair hy0, operandLo_makePair hx1,
      operandHi_makePair hy1, operandLo_makePair hx2, operandHi_makePair hy2]
  | drawXbm x y w h bitmap =>
    obtain ⟨hx, hy, hw, hh, hsize⟩ := of_decide_eq_true hi
    simp [encode, decodeCommand, operandLo_makePair hx, operandHi_makePair hy, operandLo_makePair hw,
      operandHi_makePair hh, ← hsize, unpackPayload_packPayload]

theorem encode_eq_cons (i : Instr) : encode i = (encode i).headD 0 :: (encode i).tail := by cases i <;> rfl

/-- Settles O1: the encoder's words have the length R95 gives them and are the row of the opcode map they were written
from. -/
theorem encodedCommandsDecodeToThemselves : Obligations.EncodedCommandsDecodeToThemselves := by
  intro i rest hi
  have hlen := commandLength_encode i hi
  rw [encode_eq_cons] at hlen ⊢
  exact decode_append_of_row hlen (decodeCommand_encode i hi) rest

/-- Settles O2: fixed words, encoded and decoded by evaluation. -/
theorem workedEncodingsAgree : Obligations.WorkedEncodingsAgree := by
  unfold Obligations.WorkedEncodingsAgree
  decide

/-! ## The rows of the opcode map -/

theorem headerOpc_eq {h : Word} {n : Nat} (hn : h >>> 24 = BitVec.ofNat 32 n) : headerOpc h = BitVec.ofNat 8 n := by
  have hopc : headerOpc h = (h >>> 24).setWidth 8 := BitVec.eq_of_getLsbD_eq fun i hi => by simp [headerOpc, hi]
  rw [hopc, hn, BitVec.setWidth_ofNat_of_le (by decide)]

theorem headerP_eq (h : Word) : headerP h = ((h >>> 16) &&& 0xFF#32).toNat := by
  have hp : h.extractLsb' 16 8 = (h >>> 16).setWidth 8 := BitVec.eq_of_getLsbD_eq fun i hi => by simp [hi]
  rw [headerP, hp, BitVec.toNat_setWidth, BitVec.toNat_and]
  exact (Nat.and_two_pow_sub_one_eq_mod _ 8).symm

theorem headerQ_eq (h : Word) : headerQ h = ((h >>> 8) &&& 0xFF#32).toNat := by
  have hq : h.extractLsb' 8 8 = (h >>> 8).setWidth 8 := BitVec.eq_of_getLsbD_eq fun i hi => by simp [hi]
  rw [headerQ, hq, BitVec.toNat_setWidth, BitVec.toNat_and]
  exact (Nat.and_two_pow_sub_one_eq_mod _ 8).symm

theorem headerV_eq (h : Word) : headerV h = decide (h &&& 1#32 = 1#32) := by
  rw [headerV, BitVec.and_one_eq_setWidth_ofBool_getLsbD]
  cases h.getLsbD 0 <;> rfl

/-- A command without payload whose operand words are all there, and no more. -/
theorem decode_of_row {h : Word} {ops : List Word} {i : Instr} (n : Nat)
    (hPL : opcodePL (BitVec.ofNat 8 n) = false) (hNW : opcodeNW (BitVec.ofNat 8 n) = ops.length)
    (hrow : headerOpc h = BitVec.ofNat 8 n → decodeCommand h ops = some i) (hn : h >>> 24 = BitVec.ofNat 32 n) :
    decode (h :: ops) = .instr i [] := by
  have hopc := headerOpc_eq hn
  have hlen : commandLength (h :: ops) = some (h :: ops).length := by
    rw [commandLength_of_no_payload ops (.inl (hopc ▸ hPL)), hopc, hNW, List.length_cons, Nat.add_comm]
  simpa using decode_append_of_row hlen (hrow hopc) []

/-- `DRAW_XBM` with the payload words that W2 announces, and no more. -/
theorem decode_drawXbm {h w1 w2 : Word} {ps : List Word} (hopc : headerOpc h = 0xA0)
    (hps : ps.length = payloadWords w2) :
    decode (h :: w1 :: w2 :: ps) = .instr (.drawXbm (operandLo w1) (operandHi w1) (operandLo w2) (operandHi w2)
      (unpackPayload (bitmapBytes (operandLo w2) (operandHi w2)) ps)) [] := by
  have hlen : commandLength (h :: w1 :: w2 :: ps) = some (h :: w1 :: w2 :: ps).length := by
    rw [commandLength_of_payload w1 w2 ps (by rw [hopc]; rfl) (by rw [hopc]; decide), hopc, ← hps]
    simp [opcodeNW]
    omega
  simpa using decode_append_of_row hlen (by rw [decodeCommand, hopc]; rfl) []

/-- Settles O3: the fields are the ones `decodeCommand` reads, and each row with the operand words its `NW` counts is
read by it; for `DRAW_XBM` the payload has the length R95 takes from W2. -/
theorem opcodeMapNamesEachCommand : Obligations.OpcodeMapNamesEachCommand := by
  intro h w1 w2 w3
  simp only [← headerP_eq, ← headerQ_eq, ← headerV_eq, ← operandHi_eq]
  simp only [← operandLo_eq]
  have row {ops : List Word} {i : Instr} := @decode_of_row h ops i
  refine ⟨row 0x01 rfl rfl ?_, row 0x02 rfl rfl ?_, row 0x03 rfl rfl ?_, row 0x04 rfl rfl ?_, row 0x05 rfl rfl ?_,
    row 0x06 rfl rfl ?_, row 0x07 rfl rfl ?_, row 0x08 rfl rfl ?_, row 0x09 rfl rfl ?_, row 0x0A rfl rfl ?_,
    row 0x0B rfl rfl ?_, row 0x10 rfl rfl ?_, row 0x11 rfl rfl ?_, row 0x12 rfl rfl ?_, row 0x13 rfl rfl ?_,
    row 0x20 rfl rfl ?_, row 0x21 rfl rfl ?_, row 0x22 rfl rfl ?_, row 0x23 rfl rfl ?_, row 0x24 rfl rfl ?_,
    row 0x25 rfl rfl ?_, row 0x26 rfl rfl ?_, row 0x30 rfl rfl ?_, row 0x31 rfl rfl ?_, fun hn ps hlen => ?_⟩
  case refine_25 =>
    have hopc : headerOpc h = 0xA0 := headerOpc_eq hn
    refine ⟨_, decode_drawXbm hopc ?_⟩
    rw [commandLength_of_payload w1 w2 ps (by rw [hopc]; rfl) (by rw [hopc]; decide), hopc] at hlen
    have : 1 + opcodeNW 0xA0 + payloadWords w2 = 3 + ps.length := Option.some.inj hlen
    simp [opcodeNW] at this
    omega
  all_goals
    intro hopc
    rw [decodeCommand, hopc]
    rfl

/-! ## The payload -/

/-- Byte `k` of the payload is byte `k mod 4`, from the least significant, of word `k div 4` (R68, R96). -/
theorem flatMap_unpackWord_getD (ps : List Word) (k : Nat) :
    (ps.flatMap unpackWord).getD k 0 = ((ps.getD (k / 4) 0) >>> (8 * (k % 4))).setWidth 8 := by
  induction ps generalizing k with
  | nil => simp
  | cons w ps ih =>
    have hbyte : ∀ j < 4, (unpackWord w ++ ps.flatMap unpackWord).getD j 0 = (w >>> (8 * j)).setWidth 8 := by
      intro j hj
      have hj : w.extractLsb' (8 * j) 8 = (w >>> (8 * j)).setWidth 8 := rfl
      interval_cases j <;> exact hj
    rw [List.flatMap_cons]
    by_cases hk : k < 4
    · rw [hbyte k hk, Nat.div_eq_of_lt hk, Nat.mod_eq_of_lt hk, List.getD_cons_zero]
    · obtain ⟨n, rfl⟩ := Nat.exists_eq_add_of_le' (not_lt.1 hk)
      rw [List.getD_append_right _ _ _ _ (by simp [unpackWord])]
      have hn : n + 4 - (unpackWord w).length = n := Nat.add_sub_cancel n 4
      rw [hn, ih, Nat.add_div_right n (by decide), Nat.add_mod_right, List.getD_cons_succ]

theorem flatMap_unpackWord_length (ps : List Word) : (ps.flatMap unpackWord).length = 4 * ps.length := by
  induction ps with
  | nil => rfl
  | cons w ps ih =>
    rw [List.flatMap_cons, List.length_append, ih, List.length_cons]
    simp [unpackWord]
    omega

theorem unpackPayload_length {n : Nat} {ps : List Word} (h : n ≤ 4 * ps.length) :
    (unpackPayload n ps).length = n := by
  rw [unpackPayload, List.length_take, flatMap_unpackWord_length, min_eq_left h]

theorem unpackPayload_getD {n k : Nat} (hk : k < n) (ps : List Word) :
    (unpackPayload n ps).getD k 0 = ((ps.getD (k / 4) 0) >>> (8 * (k % 4))).setWidth 8 := by
  rw [← flatMap_unpackWord_getD, unpackPayload, List.getD_eq_getElem?_getD, List.getElem?_take_of_lt hk,
    ← List.getD_eq_getElem?_getD]

/-- The payload words that W2 announces hold all the bytes of the bitmap (R96). -/
theorem bitmapBytes_le_payload {w2 : Word} {ps : List Word} (hps : ps.length = payloadWords w2) :
    bitmapBytes (operandLo w2) (operandHi w2) ≤ 4 * ps.length := by
  rw [hps, payloadWords]
  omega

/-- Settles O5: the bytes of the announced payload words, as many as the bitmap has. -/
theorem xbmPayloadCarriesBitmapBytes : Obligations.XbmPayloadCarriesBitmapBytes := by
  intro h w1 w2 ps hopc hps
  have hlen := unpackPayload_length (bitmapBytes_le_payload hps)
  simp only [← operandHi_eq]
  simp only [← operandLo_eq]
  exact ⟨_, decode_drawXbm (headerOpc_eq hopc) hps, hlen, fun k hk => unpackPayload_getD (hlen ▸ hk) ps⟩

/-! ## Fields that are ignored -/

/-- Headers that agree on a mask agree on each byte that the mask keeps whole. -/
theorem extractLsb'_eq_of_mask {h h' m : Word} (he : h &&& m = h' &&& m) (k : Nat)
    (hm : m.extractLsb' k 8 = BitVec.allOnes 8) : h.extractLsb' k 8 = h'.extractLsb' k 8 := by
  have := congrArg (BitVec.extractLsb' k 8) he
  simpa only [BitVec.extractLsb'_and, hm, BitVec.and_allOnes] using this

theorem headerV_eq_of_mask {h h' m : Word} (he : h &&& m = h' &&& m) (hm : m.getLsbD 0 = true) :
    headerV h = headerV h' := by
  have := congrArg (BitVec.getLsbD · 0) he
  unfold headerV
  simpa only [BitVec.getLsbD_and, hm, Bool.and_true] using this

/-- The opcode map reads no header bit but those that R98 lists as used. -/
theorem decodeCommand_congr {h h' : Word} (ops : List Word) (hopc : headerOpc h = headerOpc h')
    (he : h &&& Machine.usedHeaderBits (headerOpc h) = h' &&& Machine.usedHeaderBits (headerOpc h)) :
    decodeCommand h ops = decodeCommand h' ops := by
  have hmask : ∀ n, (headerOpc h).toNat = n → h &&& Machine.usedHeaderBits (BitVec.ofNat 8 n) =
      h' &&& Machine.usedHeaderBits (BitVec.ofNat 8 n) := by
    rintro _ rfl
    rwa [BitVec.ofNat_toNat, BitVec.setWidth_eq]
  unfold decodeCommand
  rw [← hopc]
  split
  case h_3 hn | h_5 hn | h_6 hn | h_12 hn | h_16 hn => rw [headerV_eq_of_mask (hmask _ hn) rfl]
  case h_9 hn | h_10 hn | h_11 hn => rw [headerP, headerP, extractLsb'_eq_of_mask (hmask _ hn) 16 rfl]
  case h_15 hn =>
    rw [headerP, headerP, headerQ, headerQ, extractLsb'_eq_of_mask (hmask _ hn) 16 rfl,
      extractLsb'_eq_of_mask (hmask _ hn) 8 rfl, headerV_eq_of_mask (hmask _ hn) rfl]
  all_goals rfl

/-- A line or circle command reads only the `LO` half of W2. -/
theorem decodeCommand_congr_lo {h w1 w2 w2' : Word} (hopc : headerOpc h ∈ [0x23#8, 0x24, 0x25, 0x26])
    (hlo : operandLo w2 = operandLo w2') : decodeCommand h [w1, w2] = decodeCommand h [w1, w2'] := by
  simp only [List.mem_cons, List.not_mem_nil, or_false] at hopc
  rcases hopc with hopc | hopc | hopc | hopc <;> simp [decodeCommand, hopc, hlo]

/-- Word lists of one opcode and one length are decoded alike if the opcode map gives them the same. -/
theorem decode_congr {h h' : Word} {ops ops' : List Word} (hopc : headerOpc h = headerOpc h')
    (hlen : ops.length = ops'.length) (hn : commandLength (h :: ops) = commandLength (h' :: ops'))
    (hrow : ∀ n, commandLength (h' :: ops') = some n →
      decodeCommand h (ops.take (n - 1)) = decodeCommand h' (ops'.take (n - 1)) ∧
        ops.drop (n - 1) = ops'.drop (n - 1)) :
    decode (h :: ops) = decode (h' :: ops') := by
  cases hc : commandLength (h' :: ops') with
  | none => simp only [decode, hn, hc]
  | some n =>
    obtain ⟨hmap, hrest⟩ := hrow n hc
    simp only [decode, hn, hc, List.length_cons, hlen, hmap, hrest, hopc]

/-- Settles O6: the header is read through the fields that R98 lists as used, W2 through its `LO` half by the commands
of one length, and the payload through the bytes of the bitmap. -/
theorem ignoredFieldsDoNotMatter : Obligations.IgnoredFieldsDoNotMatter := by
  refine ⟨fun h h' ops hopc he => ?_, fun h w1 w2 w2' ops hopc hlo => ?_,
    fun h w1 w2 ps ps' hopc hps hps' hbytes => ?_⟩
  · have hn : commandLength (h :: ops) = commandLength (h' :: ops) := by simp only [commandLength, hopc]
    exact decode_congr hopc rfl hn fun n _ => ⟨decodeCommand_congr _ hopc he, rfl⟩
  · have hn : ∀ w, commandLength (h :: w1 :: w :: ops) = some 3 := fun w => by
      have hlen := commandLength_of_no_payload (h := h) (w1 :: w :: ops)
      simp only [List.mem_cons, List.not_mem_nil, or_false] at hopc
      rcases hopc with hopc | hopc | hopc | hopc <;> rw [hopc] at hlen <;> exact hlen (.inl rfl)
    have hlo : operandLo w2 = operandLo w2' := by rw [operandLo_eq, operandLo_eq, hlo]
    refine decode_congr rfl rfl ((hn w2).trans (hn w2').symm) fun n hlen => ?_
    obtain rfl : 3 = n := Option.some.inj ((hn w2').symm.trans hlen)
    exact ⟨decodeCommand_congr_lo hopc hlo, rfl⟩
  · have hbitmap : unpackPayload (bitmapBytes (operandLo w2) (operandHi w2)) ps =
        unpackPayload (bitmapBytes (operandLo w2) (operandHi w2)) ps' := by
      have hlen := unpackPayload_length (bitmapBytes_le_payload hps)
      refine List.ext_getElem (hlen.trans (unpackPayload_length (bitmapBytes_le_payload hps')).symm) fun k hk hk' => ?_
      have hk'' := hlen ▸ hk
      rw [← List.getD_eq_getElem _ 0, ← List.getD_eq_getElem _ 0, unpackPayload_getD hk'', unpackPayload_getD hk'',
        hbytes k hk'']
    rw [decode_drawXbm hopc hps, decode_drawXbm hopc hps', hbitmap]

end Sys2Proof

namespace Sys2Proof.Machine

/-- Settles O9: the word is offered to the decoder, whose answer is the command. -/
theorem stepRunsTheDecodedCommand : Obligations.StepRunsTheDecodedCommand := by
  intro s v rest i hin hd _
  exact (step_command hin).trans (acceptWord_instr hd)

/-- Settles O10: the latch that a word has joined is not empty, which is what `STATUS.PARTIAL` shows. -/
theorem incompleteCommandWaits : Obligations.IncompleteCommandWaits := by
  intro s v rest hin hd
  have hwait : commandComplete (s.decodeLatch ++ [v]) = false := (decode_incomplete_iff _).1 hd
  refine ⟨_, (step_command hin).trans (acceptWord_incomplete hwait), rfl, ?_⟩
  obtain ⟨-, -, -, -, -, -, hpartial⟩ := statusWord_flagBits
    { s with inputs := rest, decodeLatch := s.decodeLatch ++ [v] }
  rw [busRead_status, hpartial]
  simp

end Sys2Proof.Machine
end

section
/-! The whole machine: the invariant at reset and over a step, the reset input (R240), the accesses that are refused
(R74), the registers as numbers (R42), when a flush fires (R128), and what a command can do to the front buffer and the
events (R142, R214). -/

namespace Sys2Proof.Machine

/-! ## The invariant, the reset, the slave interface -/

/-- Settles O12: what each operation keeps, each command keeps, and so each step. -/
theorem everyStepKeepsTheInvariant : Obligations.EveryStepKeepsTheInvariant :=
  fun _ _ hs h => (step_keeps h).inv hs

/-- Settles O13: the parameters of `State.reset` are in range. -/
theorem resetMeetsTheInvariant : Obligations.ResetMeetsTheInvariant :=
  ⟨fun _ hp => resetWith_inv hp, resetWith_inv (by decide +kernel)⟩

/-- Settles O16: the reset input is served as `resetInput`, which is the state of the statement. -/
theorem resetInputRestoresTheResetState : Obligations.ResetInputRestoresTheResetState := fun _ _ h => step_reset h

/-- Settles O22: the step is known for every access that the interface does not define. -/
theorem accessOutsideTheInterfaceIsRefused : Obligations.AccessOutsideTheInterfaceIsRefused :=
  fun _ _ _ _ _ ha h => step_outside ha h

/-- A register made of two halves, as a number. -/
theorem toNat_append_halves (hi lo : Half) : (hi ++ lo).toNat = hi.toNat * 65536 + lo.toNat := by
  rw [BitVec.toNat_append, ← Nat.shiftLeft_add_eq_or_of_lt lo.isLt, Nat.shiftLeft_eq]

/-- The two words of `LAST_LO` and `LAST_HI` together. -/
theorem toNat_extract_halves (t : Time) :
    (t.extractLsb' 0 32).toNat + 2 ^ 32 * (t.extractLsb' 32 32).toNat = t.toNat := by
  have := t.isLt
  simp only [BitVec.extractLsb'_toNat, Nat.shiftRight_eq_div_pow]
  omega

/-- A buffer's size fits the register that shows it. -/
theorem nbytes_lt {p : Params} (hp : p.wf) : p.nbytes < 2 ^ 32 := by
  obtain ⟨-, hw, -, hh, -⟩ := hp
  have := Nat.mul_le_mul hw hh
  unfold Params.nbytes
  omega

/-- Settles O24: each register is a field, zero-extended, or two halves, and the parameters in range fit theirs. -/
theorem registersShowTheirState : Obligations.RegistersShowTheirState := by
  intro s hp
  have hbytes := nbytes_lt hp
  obtain ⟨-, hw, -, hh, -⟩ := hp
  refine ⟨?_, ?_, toNat_append_halves _ _, toNat_append_halves _ _, toNat_append_halves _ _, ?_,
    toNat_extract_halves _, ?_, rfl⟩
  · exact (BitVec.toNat_setWidth_of_le (by decide)).trans (BitVec.toNat_ofBool _)
  · have := toNat_append_halves (BitVec.ofNat 16 s.cfg.height) (BitVec.ofNat 16 s.cfg.width)
    rwa [toNat_ofNat_dimension hw, toNat_ofNat_dimension hh] at this
  · exact BitVec.toNat_setWidth_of_le (by decide)
  · exact (BitVec.toNat_ofNat ..).trans (Nat.mod_eq_of_lt hbytes)

/-! ## Registers set by their operands -/

/-- Settles O33: each meaning is the state of the statement. -/
theorem controlToggles : Obligations.ControlToggles := fun _ _ => ⟨rfl, rfl, rfl⟩

/-- Settles O34: the geometry is exchanged by the low bit of the rotation stored, which is that of the operand. -/
theorem setRotationReportsGeometry : Obligations.SetRotationReportsGeometry := by
  rintro s r ⟨-, hw, -, hh, -⟩
  have hodd : (BitVec.ofNat 2 r).getLsbD 0 = decide (r % 2 = 1) := by
    rw [BitVec.getLsbD_ofNat, Nat.testBit_zero]
    rfl
  refine ⟨_, rfl, rfl, BitVec.toNat_ofNat _ _, ?_, ?_⟩
  all_goals
    simp only [hodd, decide_eq_true_eq]
    split
    all_goals exact toNat_ofNat_dimension ‹_›

/-- Settles O57: a signed 16-bit value survives `wrap16`, and an 8-bit one its register. -/
theorem setCursorAndTextSize : Obligations.SetCursorAndTextSize := by
  refine ⟨fun s x y hx hy => ⟨_, rfl, rfl, toInt_ofInt_coord hx, toInt_ofInt_coord hy⟩,
    fun s n hn => ⟨_, rfl, rfl, ?_⟩⟩
  have hsize : (BitVec.ofNat 8 n).toNat = n := by rw [BitVec.toNat_ofNat, Nat.mod_eq_of_lt (by omega)]
  have hzero : BitVec.ofNat 8 n = 0 ↔ n = 0 := by rw [← BitVec.toNat_inj, hsize]; rfl
  simp only [hzero]
  split
  · rw [if_neg (by omega)]; rfl
  · rw [if_pos (by omega), hsize]

/-! ## The flush -/

theorem throttled_iff (s : State) : throttled s = true ↔
    s.throttleUpdates = true ∧ (s.now - s.lastUpdateTime).toNat < s.cfg.minUpdateInterval.toNat := by
  rw [throttled, Bool.and_eq_true, decide_eq_true_eq]

/-- Settles O38: the subtraction of clock values wraps modulo 2^64, and `flushAttempt_cases` has the rest. -/
theorem flushAttemptRule : Obligations.FlushAttemptRule := by
  intro s
  refine ⟨?_, fun hflag ht => ?_, fun hquiet => ?_⟩
  · have helapsed : (s.now - s.lastUpdateTime).toNat = (2 ^ 64 + s.now.toNat - s.lastUpdateTime.toNat) % 2 ^ 64 := by
      have := s.lastUpdateTime.isLt
      rw [BitVec.toNat_sub]
      congr 1
      omega
    rw [throttled_iff, helapsed]
  · have hn : needsUpdate s = true := (Bool.or_eq_true _ _).mpr hflag
    rcases flushAttempt_cases s with ⟨-, -, he⟩ | ⟨hno, -⟩
    · exact he
    · simp [hn, ht] at hno
  · rcases flushAttempt_cases s with ⟨hn, ht, -⟩ | ⟨-, he⟩
    · rcases hquiet with ⟨hd, hf⟩ | hthrottled
      · simp [needsUpdate, hd, hf] at hn
      · simp [hthrottled] at ht
    · exact he

/-- Everything a direct write on the display can do: only the throttle decides whether it is announced (R120). -/
theorem setPixel_direct_cases {x y : Int} {s : State} (hr : inRange s.cfg x y) (ho : ¬ scopeOpen s) (on : Bool) :
    (throttled s = false ∧ setPixel x y on s = { s with
      buffer := s.buffer.setBit (bitIndex s.cfg x y) on, dirty := false, forceUpdate := false
      lastUpdateTime := s.now, events := s.events ++ [⟨s.now, s.buffer.setBit (bitIndex s.cfg x y) on⟩] }) ∨
    (throttled s = true ∧
      setPixel x y on s = { s with buffer := s.buffer.setBit (bitIndex s.cfg x y) on, dirty := true }) :=
  setPixel_direct hr ho on ▸ flushDirect_written s _

/-- After reset the clock itself is the time elapsed since the recorded time, which is 0. -/
theorem throttled_resetWith (p : Params) (now : Time) :
    throttled { State.resetWith p with now := now } = true ↔ now.toNat < p.minUpdateInterval.toNat := by
  rw [throttled_iff]
  simp [State.resetWith]

/-- Settles O40: the two cases of a direct write, told apart by the clock. -/
theorem firstFlushAfterReset : Obligations.FirstFlushAfterReset := by
  intro p now x y on _ hr
  have hthrottled := throttled_resetWith p now
  have hclosed : ¬ scopeOpen { State.resetWith p with now := now } := fun h => h rfl
  refine ⟨_, rfl, ?_⟩
  rcases setPixel_direct_cases (s := { State.resetWith p with now := now }) hr hclosed on with
    ⟨ht, he⟩ | ⟨ht, he⟩
  all_goals
    rw [ht] at hthrottled
    rw [he]
  · exact ⟨fun _ => ⟨rfl, rfl, rfl⟩, fun hlt => nomatch hthrottled.2 hlt⟩
  · exact ⟨fun hge => absurd (hthrottled.1 rfl) (not_lt.2 hge), fun _ => ⟨rfl, rfl, rfl⟩⟩

/-- Settles O41: after the commit both flags are clear, and no attempt fires without one. -/
theorem throttledCommitIsNeverAnnounced : Obligations.ThrottledCommitIsNeverAnnounced := by
  intro s h1 hflag ht
  obtain ⟨-, -, -, hcommit⟩ := endUpdateCommitsOnlyTheOutermostScope s
  have he := hcommit h1 hflag
  rw [if_pos ht] at he
  exact ⟨_, he, rfl, rfl, rfl, rfl, fun _ => rfl⟩

/-! ## What a command can do, in five cases -/

/-- What a procedure with a scope of its own does: it writes the back buffer and `dirty`, and with no scope open it
commits them (R126, R161). -/
inductive ScopedWrite (s : State) : State → Prop where
  | inside (m : Memory) (d : Bool) (e : Byte) : scopeOpen s → e ≠ 0 →
      ScopedWrite s { s with backBuffer := m, dirty := d, batchDepth := e }
  | outside (m : Memory) (d : Bool) : ¬ scopeOpen s →
      ScopedWrite s (commitScope { s with backBuffer := m, dirty := d, batchDepth := 0 })

theorem scopedWrite_inScope {s : State} {points : List Point} {on : Bool} {nests : Prop} {body : State → State}
    (hb : DrawsOpen s.cfg points on nests body) : ScopedWrite s (inScope body s) := by
  by_cases ho : scopeOpen s
  · obtain ⟨d, he, hd, -⟩ := inScope_cases_open hb ho
    exact he ▸ .inside _ _ d ho hd
  · exact inScope_cases_idle hb (not_not.1 ho) ▸ .outside _ _ ho

theorem scopedWrite_drawPoints (points : List Point) (on : Bool) (s : State) : ScopedWrite s (drawPoints points on s) :=
  scopedWrite_inScope (drawsOpen_plot s.cfg points on)

theorem scopedWrite_overwriteBack (f : State → Nat → Byte) (s : State) : ScopedWrite s (overwriteBack f s) := by
  by_cases ho : scopeOpen s
  · exact overwriteBack_open f ho ▸ .inside _ _ _ ho (depthAfter_ne_zero ho)
  · exact overwriteBack_idle f (not_not.1 ho) ▸ .outside _ _ ho

/-- What a command can do: set registers, open or close a scope, write a pixel, or write in a scope of its own, with
`inverted` set before (INVERT) or the cursor moved after (WRITE). -/
inductive CommandCase (s : State) : Instr → State → Prop where
  | registers {i : Instr} (forceUpdate throttleUpdates inverted resp : Bool) (cursorX cursorY : Half) (textSize : Byte)
      (rotation : BitVec 2) (displayWidth displayHeight : Half) :
      CommandCase s i { s with forceUpdate, throttleUpdates, inverted, resp, cursorX, cursorY, textSize, rotation,
                               displayWidth, displayHeight }
  | beginUpdate : CommandCase s .beginUpdate (beginScope s)
  | endUpdate : CommandCase s .endUpdate (endScope s)
  | setPixel {x y : Int} {on : Bool} : CommandCase s (.setPixel x y on) (setPixel x y on s)
  | inOwnScope {i : Instr} {u : State} (inverted : Bool) (cursorX : Half) :
      ScopedWrite { s with inverted := inverted } u → CommandCase s i { u with cursorX := cursorX }

/-- A command that moves no cursor. -/
theorem commandCase_ownScope {s u : State} {i : Instr} (inverted : Bool)
    (h : ScopedWrite { s with inverted := inverted } u) : CommandCase s i u :=
  .inOwnScope (u := u) inverted u.cursorX h

theorem commandCase_drawGlyph {i : Instr} (x y : Int) (c : Nat) (color : Bool) (size : Nat) 
    (s : State) (cursorX : Half) : CommandCase s i { drawGlyph x y c color size s with cursorX := cursorX } := by
  unfold drawGlyph
  split
  · exact .inOwnScope s.inverted _ (scopedWrite_inScope (drawsOpen_glyph s.cfg x y c color size))
  · exact .registers ..

theorem execInvert_case (flag : Bool) (s : State) :
    ∃ t, execInvert flag s = .next t ∧ CommandCase s (.invert flag) t := by
  unfold execInvert
  split
  · exact ⟨_, rfl, .registers ..⟩
  · exact ⟨_, rfl, commandCase_ownScope flag (scopedWrite_overwriteBack _ _)⟩

theorem execWrite_case (c : Nat) (s : State) : ∃ t, execWrite c s = .next t ∧ CommandCase s (.write c) t := by
  unfold execWrite
  split
  · exact ⟨_, rfl, .registers ..⟩
  · split
    · exact ⟨_, rfl, .registers ..⟩
    · exact ⟨_, rfl, commandCase_drawGlyph ..⟩

/-- Everything a command can do. -/
theorem exec_case (i : Instr) (s : State) : ∃ t, exec i s = .next t ∧ CommandCase s i t := by
  cases i with
  | beginUpdate => exact ⟨_, rfl, .beginUpdate⟩
  | endUpdate => exact ⟨_, rfl, .endUpdate⟩
  | setPixel x y on => exact ⟨_, rfl, .setPixel⟩
  | setForceUpdate | needsUpdate | setThrottle | setRotation | setTextSize | getPixel | setCursor =>
    exact ⟨_, rfl, .registers ..⟩
  | invert flag => exact execInvert_case flag s
  | write c => exact execWrite_case c s
  | clear | fill => exact ⟨_, rfl, commandCase_ownScope s.inverted (scopedWrite_overwriteBack _ s)⟩
  | drawChar x y c color size => exact ⟨_, rfl, commandCase_drawGlyph x y c color size s _⟩
  | drawTriangle =>
    have hbody := drawsOpen_threeLines s.cfg
    exact ⟨_, rfl, commandCase_ownScope s.inverted (scopedWrite_inScope (hbody _ _ _ _ _ _))⟩
  | fillTriangle =>
    have hbody := drawsOpen_triangleRuns s.cfg
    exact ⟨_, rfl, commandCase_ownScope s.inverted (scopedWrite_inScope (hbody _ _ _))⟩
  | drawBox | drawRect | drawLine | drawHLine | drawVLine | drawCircle | fillCircle | drawXbm =>
    exact ⟨_, rfl, commandCase_ownScope s.inverted (scopedWrite_drawPoints _ _ s)⟩

theorem commandCase_of_exec {i : Instr} {s t : State} (h : exec i s = .next t) : CommandCase s i t := by
  obtain ⟨u, hu, hc⟩ := exec_case i s
  cases hu.symm.trans h
  exact hc

/-! ## The flush of a command, and the front buffer in an open scope -/

/-- From `s` to `t` at most one flush event is emitted; it carries the clock value and the front buffer of `t`, and only
with it the recorded time changes. -/
def FlushesOnce (s t : State) : Prop :=
  (t.events = s.events ∧ t.lastUpdateTime = s.lastUpdateTime) ∨
    (t.events = s.events ++ [⟨s.now, t.buffer⟩] ∧ t.lastUpdateTime = s.now)

theorem flushesOnce_commitScope (s : State) : FlushesOnce s (commitScope s) := by
  rcases commitScope_cases s with ⟨-, -, he⟩ | ⟨-, -, he⟩ | ⟨-, he⟩ <;> rw [he]
  · exact .inr ⟨rfl, rfl⟩
  · exact .inl ⟨rfl, rfl⟩
  · exact .inl ⟨rfl, rfl⟩

theorem flushesOnce_scopedWrite {s t : State} (h : ScopedWrite s t) : FlushesOnce s t := by
  cases h with
  | inside => exact .inl ⟨rfl, rfl⟩
  | outside m d => exact flushesOnce_commitScope { s with backBuffer := m, dirty := d, batchDepth := 0 }

theorem flushesOnce_beginScope (s : State) : FlushesOnce s (beginScope s) := by
  by_cases ho : scopeOpen s
  · exact beginScope_open ho ▸ .inl ⟨rfl, rfl⟩
  · exact beginScope_idle (not_not.1 ho) ▸ .inl ⟨rfl, rfl⟩

theorem flushesOnce_endScope (s : State) : FlushesOnce s (endScope s) := by
  by_cases ho : scopeOpen s
  · by_cases h1 : s.batchDepth = 1
    · exact endScope_outermost h1 ▸ flushesOnce_commitScope { s with batchDepth := 0 }
    · exact endScope_inner ho h1 ▸ .inl ⟨rfl, rfl⟩
  · rw [endScope_closed (not_not.1 ho)]
    exact .inl ⟨rfl, rfl⟩

theorem flushesOnce_setPixel (x y : Int) (on : Bool) (s : State) : FlushesOnce s (setPixel x y on s) := by
  by_cases hr : inRange s.cfg x y
  · by_cases ho : scopeOpen s
    · exact setPixel_open hr ho on ▸ .inl ⟨rfl, rfl⟩
    · rcases setPixel_direct_cases hr ho on with ⟨-, he⟩ | ⟨-, he⟩ <;> rw [he]
      · exact .inr ⟨rfl, rfl⟩
      · exact .inl ⟨rfl, rfl⟩
  · rw [setPixel_off hr]
    exact .inl ⟨rfl, rfl⟩

theorem exec_flushesOnce {i : Instr} {s t : State} (h : exec i s = .next t) : FlushesOnce s t := by
  cases commandCase_of_exec h with
  | registers => exact .inl ⟨rfl, rfl⟩
  | beginUpdate => exact flushesOnce_beginScope s
  | endUpdate => exact flushesOnce_endScope s
  | setPixel => exact flushesOnce_setPixel _ _ _ s
  | inOwnScope _ _ hw =>
    have hu := flushesOnce_scopedWrite hw
    exact hu

theorem acceptWord_flushesOnce {v : Word} {s t : State} (h : acceptWord v s = .next t) : FlushesOnce s t := by
  rcases acceptWord_cases v s with ⟨i, he⟩ | he | ⟨-, he⟩ <;> rw [he] at h
  · exact exec_flushesOnce (s := { s with decodeLatch := [] }) h
  · cases h
    exact .inl ⟨rfl, rfl⟩
  · cases h
    exact .inl ⟨rfl, rfl⟩

/-- Settles O17: only a command flushes, and only reset sets the recorded time without an event. -/
theorem atMostOneFlushEventPerStep : Obligations.AtMostOneFlushEventPerStep := by
  intro s t h
  cases step_cases h with
  | command _ hw =>
    exact (acceptWord_flushesOnce hw).imp_left fun ⟨hevents, htime⟩ => ⟨hevents, .inl htime⟩
  | reset hin => exact .inl ⟨rfl, .inr ⟨_, hin⟩⟩
  | idle | ignoredWrite | read | clock => exact .inl ⟨rfl, .inl rfl⟩

/-- Settles O18: with a scope open a pixel goes to the back buffer, and no scope but the last to close commits. -/
theorem openScopeHidesEveryWrite : Obligations.OpenScopeHidesEveryWrite := by
  intro i s t ho hi h
  cases commandCase_of_exec h with
  | registers => exact ⟨ho, rfl, rfl, rfl⟩
  | beginUpdate =>
    have hopen := beginScope_scopeOpen s
    rw [beginScope_open ho] at hopen ⊢
    exact ⟨hopen, rfl, rfl, rfl⟩
  | endUpdate =>
    have h1 : s.batchDepth ≠ 1 := hi.resolve_left fun hne => hne rfl
    have hopen : s.batchDepth - 1 ≠ 0 := by bv_omega
    exact endScope_inner ho h1 ▸ ⟨hopen, rfl, rfl, rfl⟩
  | @setPixel x y on =>
    by_cases hr : inRange s.cfg x y
    · exact setPixel_open hr ho on ▸ ⟨ho, rfl, rfl, rfl⟩
    · rw [setPixel_off hr]
      exact ⟨ho, rfl, rfl, rfl⟩
  | inOwnScope _ _ hw =>
    cases hw with
    | inside _ _ _ _ he => exact ⟨he, rfl, rfl, rfl⟩
    | outside _ _ hc => exact absurd ho hc

end Sys2Proof.Machine
end

section
/-! Frames of the commands: who writes which register (R29, R31 to R36, R40), and two-run facts: what the metadata (R34,
R36) and the idle back buffer (R24) cannot reach. -/

namespace Sys2Proof.Machine

/-! ## The registers and who writes them -/

/-- `s` with the registers that command `i` sets by name, as their rules give them (R29, R31 to R36, R40). -/
def registerWrites (i : Instr) (s : State) : State :=
  match i with
  | .setThrottle v => { s with throttleUpdates := v }
  | .setCursor x y => { s with cursorX := wrap16 x, cursorY := wrap16 y }
  | .write c =>
    if c = 0x0A then { s with cursorX := 0, cursorY := wrap16 (s.cursorY.toInt + 8 * s.textSize.toNat) }
    else if c = 0x0D then s
    else { s with cursorX := wrap16 (s.cursorX.toInt + 5 * s.textSize.toNat) }
  | .setTextSize n => { s with textSize := if BitVec.ofNat 8 n = 0 then 1 else BitVec.ofNat 8 n }
  | .setRotation r =>
    let rotation := BitVec.ofNat 2 r
    let width := BitVec.ofNat 16 s.cfg.width
    let height := BitVec.ofNat 16 s.cfg.height
    { s with
      rotation := rotation
      displayWidth := if rotation.getLsbD 0 then height else width
      displayHeight := if rotation.getLsbD 0 then width else height }
  | .invert v => { s with inverted := v }
  | .getPixel x y => { s with resp := getPixel x y s }
  | .needsUpdate => { s with resp := needsUpdate s }
  | _ => s

theorem beginScope_control (s : State) : SameControl s (beginScope s) := by
  by_cases ho : scopeOpen s
  · rw [beginScope_open ho]
    constructor <;> rfl
  · rw [beginScope_idle (not_not.1 ho)]
    constructor <;> rfl

theorem endScope_control (s : State) : SameControl s (endScope s) := by
  by_cases ho : scopeOpen s
  · by_cases h1 : s.batchDepth = 1
    · rw [endScope_outermost h1]
      exact SameControl.trans (by constructor <;> rfl) (commitScope_control _)
    · rw [endScope_inner ho h1]
      constructor <;> rfl
  · rw [endScope_closed (not_not.1 ho)]
    exact .refl s

theorem setPixel_control (x y : Int) (on : Bool) (s : State) : SameControl s (setPixel x y on s) := by
  by_cases hr : inRange s.cfg x y
  · by_cases ho : scopeOpen s
    · rw [setPixel_open hr ho]
      constructor <;> rfl
    · rcases setPixel_direct_cases hr ho on with ⟨-, he⟩ | ⟨-, he⟩ <;> rw [he] <;> constructor <;> rfl
  · rw [setPixel_off hr]
    exact .refl s

theorem drawPoints_control (points : List Point) (on : Bool) (s : State) : SameControl s (drawPoints points on s) :=
  inScope_control (drawsOpen_plot s.cfg points on)

theorem drawGlyph_control (x y : Int) (c : Nat) (color : Bool) (size : Nat) (s : State) :
    SameControl s (drawGlyph x y c color size s) := by
  unfold drawGlyph
  split
  · exact inScope_control (drawsOpen_glyph s.cfg x y c color size)
  · exact .refl s

theorem execInvert_control (flag : Bool) (s : State) :
    ∃ t, execInvert flag s = .next t ∧ SameControl (registerWrites (.invert flag) s) t := by
  unfold execInvert
  split
  · subst flag
    exact ⟨_, rfl, .refl s⟩
  · exact ⟨_, rfl, overwriteBack_control _ _⟩

theorem execWrite_control (c : Nat) (s : State) :
    ∃ t, execWrite c s = .next t ∧ SameControl (registerWrites (.write c) s) t := by
  simp only [execWrite, registerWrites]
  split
  · exact ⟨_, rfl, .refl _⟩
  · split
    · exact ⟨_, rfl, .refl s⟩
    · have hglyph := drawGlyph_control s.cursorX.toInt s.cursorY.toInt c true s.textSize.toNat s
      exact ⟨_, rfl, { hglyph with cursorX := rfl }⟩

/-- A command writes, of the registers that drawing leaves alone, those of `registerWrites` and no other. -/
theorem exec_control (i : Instr) (s : State) : ∃ t, exec i s = .next t ∧ SameControl (registerWrites i s) t := by
  cases i with
  | beginUpdate => exact ⟨_, rfl, beginScope_control s⟩
  | endUpdate => exact ⟨_, rfl, endScope_control s⟩
  | setForceUpdate => exact ⟨_, rfl, by constructor <;> rfl⟩
  | setRotation => exact ⟨_, rfl, by constructor <;> rfl⟩
  | needsUpdate | setThrottle | setTextSize | getPixel | setCursor => exact ⟨_, rfl, .refl _⟩
  | invert flag => exact execInvert_control flag s
  | write c => exact execWrite_control c s
  | setPixel x y on => exact ⟨_, rfl, setPixel_control x y on s⟩
  | drawChar x y c color size => exact ⟨_, rfl, drawGlyph_control x y c color size s⟩
  | clear | fill => exact ⟨_, rfl, overwriteBack_control _ s⟩
  | drawTriangle => exact ⟨_, rfl, inScope_control (drawsOpen_threeLines s.cfg _ _ _ _ _ _)⟩
  | fillTriangle => exact ⟨_, rfl, inScope_control (drawsOpen_triangleRuns s.cfg _ _ _)⟩
  | drawBox | drawRect | drawLine | drawHLine | drawVLine | drawCircle | fillCircle | drawXbm =>
    exact ⟨_, rfl, drawPoints_control _ _ s⟩

theorem control_of_exec {i : Instr} {s t : State} (h : exec i s = .next t) : SameControl (registerWrites i s) t := by
  obtain ⟨u, hu, hc⟩ := exec_control i s
  cases hu.symm.trans h
  exact hc

/-- What no command writes at all. -/
theorem registerWrites_unwritten (i : Instr) (s : State) :
    (registerWrites i s).decodeLatch = s.decodeLatch ∧ (registerWrites i s).now = s.now ∧
    (registerWrites i s).inputs = s.inputs ∧ (registerWrites i s).readData = s.readData := by
  unfold registerWrites
  split
  case h_3 => split_ifs <;> exact ⟨rfl, rfl, rfl, rfl⟩
  all_goals exact ⟨rfl, rfl, rfl, rfl⟩

/-- The one command that writes each of the other registers, or the two that write the cursor and `resp`. -/
theorem registerWrites_writers (i : Instr) (s : State) :
    ((registerWrites i s).throttleUpdates ≠ s.throttleUpdates → ∃ v, i = .setThrottle v) ∧
    ((registerWrites i s).cursorX ≠ s.cursorX ∨ (registerWrites i s).cursorY ≠ s.cursorY →
      (∃ x y, i = .setCursor x y) ∨ ∃ c, i = .write c) ∧
    ((registerWrites i s).textSize ≠ s.textSize → ∃ n, i = .setTextSize n) ∧
    ((registerWrites i s).rotation ≠ s.rotation ∨ (registerWrites i s).displayWidth ≠ s.displayWidth ∨
      (registerWrites i s).displayHeight ≠ s.displayHeight → ∃ r, i = .setRotation r) ∧
    ((registerWrites i s).inverted ≠ s.inverted → ∃ v, i = .invert v) ∧
    ((registerWrites i s).resp ≠ s.resp → (∃ x y, i = .getPixel x y) ∨ i = .needsUpdate) := by
  unfold registerWrites
  split
  case h_3 => split_ifs <;> simp
  all_goals simp

theorem acceptWord_now {v : Word} {s t : State} (h : acceptWord v s = .next t) : t.now = s.now := by
  rcases acceptWord_cases v s with ⟨i, he⟩ | he | ⟨-, he⟩ <;> rw [he] at h
  · obtain ⟨-, hnow, -⟩ := registerWrites_unwritten i { s with decodeLatch := [] }
    exact (control_of_exec h).now.trans hnow
  · cases h
    rfl
  · cases h
    rfl

/-- Settles O19: a command writes the registers of `registerWrites`, and the clock level is set by its input only. -/
theorem registersHaveTheWritersNamed : Obligations.RegistersHaveTheWritersNamed := by
  refine ⟨fun i s t h => ?_, fun s now rest hin => step_clock hin, fun s t h hne => ?_⟩
  · obtain ⟨-, hthrottle, hcx, hcy, hsize, hrot, hdw, hdh, hinv, hlatch, hresp, hnow, hinputs, hread⟩ :=
      control_of_exec h
    obtain ⟨wthrottle, wcursor, wsize, wgeometry, winv, wresp⟩ := registerWrites_writers i s
    obtain ⟨elatch, enow, einputs, eread⟩ := registerWrites_unwritten i s
    rw [hthrottle, hcx, hcy, hsize, hrot, hdw, hdh, hinv, hlatch, hresp, hnow, hinputs, hread]
    exact ⟨wthrottle, wcursor, wsize, wgeometry, winv, wresp, elatch, enow, einputs, eread⟩
  · cases step_cases h with
    | clock hin => exact ⟨_, hin⟩
    | command _ hw => exact absurd (acceptWord_now hw) hne
    | idle | ignoredWrite | read | reset => exact absurd rfl hne

/-! ## Metadata -/

/-- `s` with other metadata: rotation, reported geometry and `inverted` (R34 to R36). -/
def State.withMeta (s : State) (r : BitVec 2) (dw dh : Half) (inv : Bool) : State :=
  { s with rotation := r, displayWidth := dw, displayHeight := dh, inverted := inv }

/-- `f` neither reads nor writes the metadata: it can be changed before `f` or after it. -/
def IgnoresMeta (f : State → State) : Prop :=
  ∀ s r dw dh inv, f (s.withMeta r dw dh inv) = (f s).withMeta r dw dh inv

theorem flushAttempt_withMeta (s : State) (r : BitVec 2) (dw dh : Half) (inv : Bool) :
    flushAttempt (s.withMeta r dw dh inv) = ((flushAttempt s).1, (flushAttempt s).2.withMeta r dw dh inv) := by
  have hn : needsUpdate (s.withMeta r dw dh inv) = needsUpdate s := rfl
  have ht : throttled (s.withMeta r dw dh inv) = throttled s := rfl
  unfold flushAttempt
  rw [hn, ht]
  split
  · rfl
  · split <;> rfl

theorem flushDirect_ignoresMeta : IgnoresMeta flushDirect := fun s r dw dh inv => by
  unfold flushDirect
  rw [flushAttempt_withMeta]
  split <;> rfl

theorem commitScope_ignoresMeta : IgnoresMeta commitScope := fun s r dw dh inv => by
  have hn : needsUpdate (s.withMeta r dw dh inv) = needsUpdate s := rfl
  have hswap : swapBuffers (s.withMeta r dw dh inv) = (swapBuffers s).withMeta r dw dh inv := rfl
  unfold commitScope
  rw [hn, hswap, flushAttempt_withMeta]
  split <;> rfl

theorem beginScope_ignoresMeta : IgnoresMeta beginScope := fun s r dw dh inv => by
  by_cases ho : scopeOpen s
  · rw [beginScope_open ho]
    exact beginScope_open (s := s.withMeta r dw dh inv) ho
  · rw [beginScope_idle (not_not.1 ho)]
    exact beginScope_idle (s := s.withMeta r dw dh inv) (not_not.1 ho)

theorem endScope_ignoresMeta : IgnoresMeta endScope := fun s r dw dh inv => by
  by_cases ho : scopeOpen s
  · by_cases h1 : s.batchDepth = 1
    · rw [endScope_outermost h1, endScope_outermost (s := s.withMeta r dw dh inv) h1]
      exact commitScope_ignoresMeta { s with batchDepth := 0 } r dw dh inv
    · rw [endScope_inner ho h1]
      exact endScope_inner (s := s.withMeta r dw dh inv) ho h1
  · rw [endScope_closed (not_not.1 ho)]
    exact endScope_closed (s := s.withMeta r dw dh inv) (not_not.1 ho)

theorem setPixel_ignoresMeta (x y : Int) (on : Bool) : IgnoresMeta (setPixel x y on) := fun s r dw dh inv => by
  by_cases hr : inRange s.cfg x y
  · by_cases ho : scopeOpen s
    · rw [setPixel_open hr ho]
      exact setPixel_open (s := s.withMeta r dw dh inv) hr ho on
    · rw [setPixel_direct hr ho, setPixel_direct (s := s.withMeta r dw dh inv) hr ho]
      exact flushDirect_ignoresMeta { s with
        buffer := s.buffer.setBit (bitIndex s.cfg x y) on, dirty := true } r dw dh inv
  · rw [setPixel_off hr]
    exact setPixel_off (s := s.withMeta r dw dh inv) hr on

theorem IgnoresMeta.foldl {α : Type} {b : α → State → State} (h : ∀ a, IgnoresMeta (b a)) (l : List α) :
    IgnoresMeta (fun s => l.foldl (fun s a => b a s) s) := by
  induction l with
  | nil => exact fun _ _ _ _ _ => rfl
  | cons a l ih =>
    intro s r dw dh inv
    simp only [List.foldl_cons, h a s r dw dh inv]
    exact ih (b a s) r dw dh inv

theorem IgnoresMeta.comp {f g : State → State} (hg : IgnoresMeta g) (hf : IgnoresMeta f) :
    IgnoresMeta (fun s => g (f s)) :=
  fun s r dw dh inv => (congrArg g (hf s r dw dh inv)).trans (hg (f s) r dw dh inv)

theorem IgnoresMeta.inScope {body : State → State} (h : IgnoresMeta body) : IgnoresMeta (inScope body) :=
  endScope_ignoresMeta.comp (h.comp beginScope_ignoresMeta)

/-- A procedure may depend on the parameters. -/
theorem IgnoresMeta.ofCfg {f : Params → State → State} (h : ∀ p, IgnoresMeta (f p)) :
    IgnoresMeta (fun s => f s.cfg s) := fun s => h s.cfg s

theorem plot_ignoresMeta (points : List Point) (on : Bool) : IgnoresMeta (plot points on) := by
  have hpixel : ∀ q : Point, IgnoresMeta (setPixel q.1 q.2 on) := fun q => setPixel_ignoresMeta q.1 q.2 on
  have hplot := IgnoresMeta.foldl hpixel points
  exact hplot

theorem drawPoints_ignoresMeta (points : List Point) (on : Bool) : IgnoresMeta (drawPoints points on) :=
  (plot_ignoresMeta points on).inScope

theorem drawBox_ignoresMeta (x y w h : Int) (on : Bool) : IgnoresMeta (drawBox x y w h on) :=
  .ofCfg fun p => drawPoints_ignoresMeta (boxPoints p x y w h) on

theorem drawGlyphPixel_ignoresMeta (x y : Int) (color : Bool) (size : Nat) (q : Nat × Nat) :
    IgnoresMeta (drawGlyphPixel x y color size q) := fun s r dw dh inv => by
  unfold drawGlyphPixel
  split
  · exact drawBox_ignoresMeta _ _ _ _ color s r dw dh inv
  · exact setPixel_ignoresMeta _ _ color s r dw dh inv

theorem drawGlyph_ignoresMeta (x y : Int) (c : Nat) (color : Bool) (size : Nat) :
    IgnoresMeta (drawGlyph x y c color size) := fun s r dw dh inv => by
  unfold drawGlyph
  split
  · exact IgnoresMeta.inScope (.ofCfg fun p => .foldl (drawGlyphPixel_ignoresMeta x y color size) (glyphPixels p c))
      s r dw dh inv
  · rfl

theorem overwriteBack_ignoresMeta (f : Nat → Byte) : IgnoresMeta (overwriteBack fun _ => f) :=
  IgnoresMeta.inScope fun _ _ _ _ _ => rfl

theorem execWrite_ignoresMeta (c : Nat) : ∃ f, (∀ s, execWrite c s = .next (f s)) ∧ IgnoresMeta f := by
  by_cases hlf : c = 0x0A
  · exact ⟨_, fun s => if_pos hlf, fun _ _ _ _ _ => rfl⟩
  · by_cases hcr : c = 0x0D
    · exact ⟨_, fun s => (if_neg hlf).trans (if_pos hcr), fun _ _ _ _ _ => rfl⟩
    · refine ⟨_, fun s => (if_neg hlf).trans (if_neg hcr), fun s r dw dh inv => ?_⟩
      have hglyph := drawGlyph_ignoresMeta s.cursorX.toInt s.cursorY.toInt c true s.textSize.toNat s r dw dh inv
      exact congrArg (fun u => { u with cursorX := wrap16 (s.cursorX.toInt + 5 * s.textSize.toNat) }) hglyph

/-- Every command but `INVERT` and `SET_ROTATION` is an operation that ignores the metadata. -/
theorem exec_ignoresMeta (i : Instr) (hinv : ∀ v, i ≠ .invert v) (hrot : ∀ r, i ≠ .setRotation r) :
    ∃ f, (∀ s, exec i s = .next (f s)) ∧ IgnoresMeta f := by
  cases i with
  | invert v => exact absurd rfl (hinv v)
  | setRotation r => exact absurd rfl (hrot r)
  | beginUpdate => exact ⟨_, fun _ => rfl, beginScope_ignoresMeta⟩
  | endUpdate => exact ⟨_, fun _ => rfl, endScope_ignoresMeta⟩
  | setForceUpdate | needsUpdate | setThrottle | setTextSize | getPixel | setCursor =>
    exact ⟨_, fun _ => rfl, fun _ _ _ _ _ => rfl⟩
  | write c => exact execWrite_ignoresMeta c
  | setPixel x y on => exact ⟨_, fun _ => rfl, setPixel_ignoresMeta x y on⟩
  | drawChar x y c color size => exact ⟨_, fun _ => rfl, drawGlyph_ignoresMeta x y c color size⟩
  | clear | fill => exact ⟨_, fun _ => rfl, overwriteBack_ignoresMeta _⟩
  | drawTriangle x0 y0 x1 y1 x2 y2 =>
    exact ⟨_, fun _ => rfl, .inScope ((drawPoints_ignoresMeta _ true).comp
      ((drawPoints_ignoresMeta _ true).comp (drawPoints_ignoresMeta (linePoints x0 y0 x1 y1) true)))⟩
  | fillTriangle x0 y0 x1 y1 x2 y2 =>
    exact ⟨_, fun _ => rfl, .inScope (.foldl (fun q => drawPoints_ignoresMeta (runPoints q) true)
      (triangleRuns (x0, y0) (x1, y1) (x2, y2)))⟩
  | drawBox x y w h on => exact ⟨_, fun _ => rfl, drawBox_ignoresMeta x y w h on⟩
  | drawRect | drawLine | drawHLine | drawVLine | drawCircle | fillCircle | drawXbm =>
    exact ⟨_, fun _ => rfl, drawPoints_ignoresMeta _ true⟩

/-- Settles O20: the second run differs from the first in its metadata only; `SET_ROTATION` writes nothing else but
`forceUpdate`. -/
theorem metadataDoesNotReachPixels : Obligations.MetadataDoesNotReachPixels := by
  intro i s t t' r dw dh inv hinv h h'
  by_cases hrot : ∃ n, i = .setRotation n
  · obtain ⟨n, rfl⟩ := hrot
    cases h
    cases h'
    exact ⟨rfl, rfl, rfl, rfl, rfl, rfl, rfl, rfl, rfl, rfl⟩
  · obtain ⟨f, hf, hmeta⟩ := exec_ignoresMeta i hinv fun n hn => hrot ⟨n, hn⟩
    cases (hf s).symm.trans h
    cases ((hf (s.withMeta r dw dh inv)).trans (congrArg _ (hmeta s r dw dh inv))).symm.trans h'
    exact ⟨rfl, rfl, rfl, rfl, rfl, rfl, rfl, rfl, rfl, rfl⟩

/-! ## The back buffer with no scope open -/

/-- Opening a scope overwrites an idle back buffer (R124). -/
theorem beginScope_idle_backBuffer {s : State} (h0 : s.batchDepth = 0) (m : Memory) :
    beginScope { s with backBuffer := m } = beginScope s := by
  rw [beginScope_idle h0]
  exact beginScope_idle (s := { s with backBuffer := m }) h0

/-- With no scope open `f` reads nothing of the back buffer, and if it leaves one open it has overwritten all of it. -/
def IgnoresIdleBack (f : State → State) : Prop :=
  ∀ s m, s.batchDepth = 0 → ∃ m', f { s with backBuffer := m } = { f s with backBuffer := m' } ∧
    (scopeOpen (f s) → m' = (f s).backBuffer)

/-- What begins by opening a scope. -/
theorem ignoresIdleBack_of_beginScope (g : State → State) : IgnoresIdleBack (fun s => g (beginScope s)) :=
  fun s m h0 => ⟨(g (beginScope s)).backBuffer, congrArg g (beginScope_idle_backBuffer h0 m), fun _ => rfl⟩

theorem inScope_ignoresIdleBack (body : State → State) : IgnoresIdleBack (inScope body) :=
  ignoresIdleBack_of_beginScope fun s => endScope (body s)

/-- What leaves every scope closed and the back buffer alone. -/
theorem ignoresIdleBack_of_closed {f : State → State} (hdepth : ∀ s, s.batchDepth = 0 → (f s).batchDepth = 0)
    (hback : ∀ s m, s.batchDepth = 0 → f { s with backBuffer := m } = { f s with backBuffer := m }) :
    IgnoresIdleBack f := fun s m h0 => ⟨m, hback s m h0, fun ho => absurd (hdepth s h0) ho⟩

theorem endScope_ignoresIdleBack : IgnoresIdleBack endScope :=
  ignoresIdleBack_of_closed (fun s h0 => by rwa [endScope_closed h0]) fun s m h0 => by
    rw [endScope_closed h0]
    exact endScope_closed (s := { s with backBuffer := m }) h0

/-- A direct write goes to the front buffer (R120). -/
theorem setPixel_ignoresIdleBack (x y : Int) (on : Bool) : IgnoresIdleBack (setPixel x y on) := by
  refine ignoresIdleBack_of_closed (fun s h0 => ?_) fun s m h0 => ?_
  · by_cases hr : inRange s.cfg x y
    · rcases setPixel_direct_cases hr (not_not.2 h0) on with ⟨-, he⟩ | ⟨-, he⟩ <;> rw [he] <;> exact h0
    · rwa [setPixel_off hr]
  · by_cases hr : inRange s.cfg x y
    · have ht : throttled { s with backBuffer := m } = throttled s := rfl
      rcases setPixel_direct_cases hr (not_not.2 h0) on with ⟨h, he⟩ | ⟨h, he⟩ <;>
        rcases setPixel_direct_cases (s := { s with backBuffer := m }) hr (not_not.2 h0) on with
          ⟨k, ke⟩ | ⟨k, ke⟩
      · rw [he, ke]
      · simp [ht, h] at k
      · simp [ht, h] at k
      · rw [he, ke]
    · rw [setPixel_off hr]
      exact setPixel_off (s := { s with backBuffer := m }) hr on

theorem drawGlyph_ignoresIdleBack (x y : Int) (c : Nat) (color : Bool) (size : Nat) :
    IgnoresIdleBack (drawGlyph x y c color size) := by
  by_cases hc : printable c
  · have hglyph : drawGlyph x y c color size = inScope _ := funext fun _ => if_pos hc
    exact hglyph ▸ inScope_ignoresIdleBack _
  · have hglyph : drawGlyph x y c color size = id := funext fun _ => if_neg hc
    exact hglyph ▸ ignoresIdleBack_of_closed (fun _ h0 => h0) fun _ _ _ => rfl

theorem execWrite_ignoresIdleBack (c : Nat) : ∃ f, (∀ s, execWrite c s = .next (f s)) ∧ IgnoresIdleBack f := by
  by_cases hlf : c = 0x0A
  · exact ⟨_, fun s => if_pos hlf, ignoresIdleBack_of_closed (fun _ h0 => h0) fun _ _ _ => rfl⟩
  · by_cases hcr : c = 0x0D
    · exact ⟨_, fun s => (if_neg hlf).trans (if_pos hcr),
        ignoresIdleBack_of_closed (fun _ h0 => h0) fun _ _ _ => rfl⟩
    · refine ⟨_, fun s => (if_neg hlf).trans (if_neg hcr), fun s m h0 => ?_⟩
      obtain ⟨m', he, hm⟩ :=
        drawGlyph_ignoresIdleBack s.cursorX.toInt s.cursorY.toInt c true s.textSize.toNat s m h0
      exact ⟨m', congrArg (fun u => { u with cursorX := wrap16 (s.cursorX.toInt + 5 * s.textSize.toNat) }) he, hm⟩

theorem execInvert_ignoresIdleBack (flag : Bool) :
    ∃ f, (∀ s, execInvert flag s = .next (f s)) ∧ IgnoresIdleBack f := by
  refine ⟨_, fun s => (apply_ite Host.Outcome.next _ _ _).symm, fun s m h0 => ?_⟩
  by_cases he : flag = s.inverted
  · simp only [if_pos he]
    exact ⟨m, rfl, fun ho => absurd h0 ho⟩
  · simp only [if_neg he]
    exact inScope_ignoresIdleBack _ { s with inverted := flag } m h0

/-- Every command is an operation that ignores an idle back buffer. -/
theorem exec_ignoresIdleBack (i : Instr) : ∃ f, (∀ s, exec i s = .next (f s)) ∧ IgnoresIdleBack f := by
  cases i with
  | beginUpdate => exact ⟨_, fun _ => rfl, ignoresIdleBack_of_beginScope id⟩
  | endUpdate => exact ⟨_, fun _ => rfl, endScope_ignoresIdleBack⟩
  | setForceUpdate | needsUpdate | setThrottle | setRotation | setTextSize | getPixel | setCursor =>
    exact ⟨_, fun _ => rfl, ignoresIdleBack_of_closed (fun _ h0 => h0) fun _ _ _ => rfl⟩
  | invert flag => exact execInvert_ignoresIdleBack flag
  | write c => exact execWrite_ignoresIdleBack c
  | setPixel x y on => exact ⟨_, fun _ => rfl, setPixel_ignoresIdleBack x y on⟩
  | drawChar x y c color size => exact ⟨_, fun _ => rfl, drawGlyph_ignoresIdleBack x y c color size⟩
  | drawBox x y w h on =>
    exact ⟨_, fun _ => rfl, fun s => inScope_ignoresIdleBack (plot (boxPoints s.cfg x y w h) on) s⟩
  | clear | fill | drawRect | drawLine | drawHLine | drawVLine | drawCircle | fillCircle | drawTriangle | fillTriangle
  | drawXbm => exact ⟨_, fun _ => rfl, inScope_ignoresIdleBack _⟩

/-- Settles O21: every command ignores an idle back buffer. -/
theorem backBufferIsUnobservableOutsideAScope : Obligations.BackBufferIsUnobservableOutsideAScope := by
  intro i s t m ho h
  obtain ⟨f, hf, hidle⟩ := exec_ignoresIdleBack i
  obtain ⟨m', he, hm⟩ := hidle s m (not_not.1 ho)
  cases (hf s).symm.trans h
  exact ⟨m', (hf _).trans (congrArg _ he), hm⟩

end Sys2Proof.Machine
end

section
/-! The framebuffer store: pixels read back (R140), whole-buffer operations (R136 to R138), nested and saturated scopes
(R126, R255), two direct writes within the interval (R143). -/

namespace Sys2Proof.Machine

/-! ## Reading painted pixels -/

theorem covers_bitIndex {p : Params} {P : Int → Int → Prop} {x y : Int} (h : inRange p x y) :
    covers p P (bitIndex p x y) ↔ P x y := by
  constructor
  · rintro ⟨a, b, hab, hP, he⟩
    obtain ⟨rfl, rfl⟩ := bitIndex_inj hab h he
    exact hP
  · exact fun hP => ⟨x, y, h, hP, rfl⟩

theorem getPixel_of_inRange {x y : Int} {s : State} (h : inRange s.cfg x y) :
    getPixel x y s = s.buffer.bit (bitIndex s.cfg x y) := if_pos h

theorem getPixel_of_not_inRange {x y : Int} {s : State} (h : ¬ inRange s.cfg x y) : getPixel x y s = false := if_neg h

/-- A pixel of the painted set reads as painted. -/
theorem getPixel_painted {s t : State} {P : Int → Int → Prop} {on : Bool} (hcfg : t.cfg = s.cfg)
    (hp : Painted s.cfg P on s.buffer t.buffer) {x y : Int} (hr : inRange s.cfg x y) (hP : P x y) :
    getPixel x y t = on := by
  rw [getPixel_of_inRange (hcfg ▸ hr), hcfg]
  exact hp.written _ ((covers_bitIndex hr).2 hP)

/-- Any other pixel reads as before. -/
theorem getPixel_not_painted {s t : State} {P : Int → Int → Prop} {on : Bool} (hcfg : t.cfg = s.cfg)
    (hp : Painted s.cfg P on s.buffer t.buffer) {x y : Int} (hP : ¬ P x y) : getPixel x y t = getPixel x y s := by
  by_cases hr : inRange s.cfg x y
  · rw [getPixel_of_inRange hr, getPixel_of_inRange (hcfg ▸ hr), hcfg]
    exact hp.kept _ (mt (covers_bitIndex hr).1 hP)
  · rw [getPixel_of_not_inRange hr, getPixel_of_not_inRange (hcfg ▸ hr)]

/-- Settles O29: the write paints one pixel of the front buffer, which `GET_PIXEL` reads. -/
theorem setPixelThenGetPixel : Obligations.SetPixelThenGetPixel := by
  intro s x y on hs ho hr
  obtain ⟨t, ht, -, hon⟩ := setPixelWritesOnePixel s x y on hs
  obtain ⟨hcontrol, -, -, hdirect⟩ := hon hr
  obtain ⟨-, hpaint, -⟩ := hdirect ho
  refine ⟨t, ht, ?_, fun a b hne =>
    getPixel_not_painted hcontrol.cfg hpaint fun ⟨ha, hb⟩ => hne (Prod.ext ha hb)⟩
  have hread := getPixel_painted hcontrol.cfg hpaint hr ⟨rfl, rfl⟩
  exact congrArg (fun v => Host.Outcome.next { t with resp := v }) hread

/-! ## The throttle after a write that was announced -/

theorem exec_inv {i : Instr} {s t : State} (h : exec i s = .next t) (hs : s.Inv) : t.Inv := by
  obtain ⟨u, hu, hk⟩ := exec_keeps i s
  cases hu.symm.trans h
  exact hk.inv hs

/-- Settles O39: the first write records its clock value, from which the later one is under the interval. -/
theorem secondWriteWithinIntervalIsThrottled : Obligations.SecondWriteWithinIntervalIsThrottled := by
  intro s later x y x' y' on on' hs ho hr hr' hthrottle hfires hle hlt
  obtain ⟨t, ht, -, hon⟩ := setPixelWritesOnePixel s x y on hs
  obtain ⟨hcontrol, hdepth, -, hdirect⟩ := hon hr
  obtain ⟨-, -, hannounced, hclear, -⟩ := hdirect ho
  obtain ⟨htime, hevents⟩ := hannounced.fired hfires
  obtain ⟨hdirty, -⟩ := hclear hfires
  have hinv : State.Inv { t with now := later } := (keeps_freeRegisters t ..).inv (exec_inv ht hs)
  have hthrottled : throttled { t with now := later } = true := by
    have helapsed : (later - s.now).toNat < s.cfg.minUpdateInterval.toNat := by bv_omega
    rw [throttled_iff]
    exact ⟨hcontrol.throttleUpdates.trans hthrottle, by rwa [htime, hcontrol.cfg]⟩
  have hr'' : inRange t.cfg x' y' := hcontrol.cfg ▸ hr'
  obtain ⟨u, hu, -, hon'⟩ := setPixelWritesOnePixel { t with now := later } x' y' on' hinv
  obtain ⟨hcontrol', -, -, hdirect'⟩ := hon' hr''
  obtain ⟨-, hpaint, hannounced', -, hkeep⟩ := hdirect' (by rw [hdepth]; exact ho)
  obtain ⟨htime', hevents'⟩ := hannounced'.quiet (by simp [hthrottled])
  exact ⟨t, u, ht, hu, htime, hevents, hdirty, htime'.trans htime, hevents', (hkeep hthrottled).1,
    getPixel_painted hcontrol'.cfg hpaint hr'' ⟨rfl, rfl⟩⟩

/-! ## Whole-buffer operations -/

theorem beginScope_buffer (s : State) : (beginScope s).buffer = s.buffer := by
  by_cases ho : scopeOpen s
  · rw [beginScope_open ho]
  · rw [beginScope_idle (not_not.1 ho)]

/-- Overwriting the back buffer, after `inverted` is set: everything is written, whatever the flags, and with no scope
open it is one commit. The bytes may be taken from the front buffer. -/
theorem overwriteBack_effect (f : State → Nat → Byte) (s : State) (flag : Bool) {back : Memory → Prop}
    (hback : ∀ u : State, u.buffer = s.buffer → back (Memory.tabulate s.cfg.nbytes (f u))) :
    SameControl { s with inverted := flag } (overwriteBack f { s with inverted := flag }) ∧
    (scopeOpen s → InsideScope False True back s (overwriteBack f { s with inverted := flag })) ∧
    (¬ scopeOpen s → OneCommit True back s (overwriteBack f { s with inverted := flag })) := by
  refine ⟨overwriteBack_control f _, fun ho => ?_, fun ho => ?_⟩
  · rw [overwriteBack_open f (s := { s with inverted := flag }) ho]
    exact ⟨rfl, hback _ (beginScope_buffer _), by simp, rfl, rfl, rfl, depthAfter_ne_zero ho,
      fun _ => depthAfter_toNat _, False.elim⟩
  · rw [overwriteBack_idle f (s := { s with inverted := flag }) (not_not.1 ho)]
    have hcommit := commitScope_oneCommit (s := { s with inverted := flag }) (wrote := true) (written := True)
      (iff_of_true rfl trivial) (hback { s with inverted := flag, backBuffer := s.buffer, batchDepth := 1 } rfl) nofun
    simp only [Bool.or_true] at hcommit
    obtain ⟨hfront, hold, hdirty, hforce, hdepth, hfired, hquiet⟩ := hcommit
    exact ⟨hfront, hold, hdirty, hforce, hdepth, hfired, hquiet⟩

/-- Settles O37: a constant byte everywhere. -/
theorem clearAndFillSetEveryByte : Obligations.ClearAndFillSetEveryByte := by
  intro s _
  have hclear := overwriteBack_effect (fun _ _ => 0x00) s s.inverted (back := fun m => ∀ a, m.read a = 0x00)
    fun u _ a => by rw [read_tabulate, ite_self]
  have hfill := overwriteBack_effect (fun _ _ => 0xFF) s s.inverted
    (back := fun m => ∀ a, m.read a = if a < s.cfg.nbytes then 0xFF else 0x00) fun u _ a => read_tabulate ..
  exact ⟨⟨_, rfl, hclear⟩, ⟨_, rfl, hfill⟩⟩

/-- Settles O35: the complement is taken of the front buffer, which opening the scope has not changed. -/
theorem invertComplementsTheFrontBuffer : Obligations.InvertComplementsTheFrontBuffer := by
  intro s flag _
  by_cases he : flag = s.inverted
  · exact ⟨s, if_pos he, fun _ => rfl, fun hne => absurd he hne⟩
  · refine ⟨_, if_neg he, fun h => absurd h he, fun _ => ?_⟩
    exact overwriteBack_effect (fun s i => ~~~s.buffer.read i) s flag fun u hu a => by rw [read_tabulate, hu]

/-- The complement of the complement is the buffer, whose padding past `NBYTES` reads 0x00. -/
theorem eq_of_complement_twice {p : Params} {m m' m'' : Memory} (hm : bufferOk p m) (hm'' : bufferOk p m'')
    (h : ∀ a, m'.read a = if a < p.nbytes then ~~~m.read a else 0x00)
    (h' : ∀ a, m''.read a = if a < p.nbytes then ~~~m'.read a else 0x00) : m'' = m :=
  memory_ext hm''.1 hm.1 fun a => by
    rw [h', h]
    split
    · exact BitVec.not_not
    · exact (read_of_within hm.2 (not_lt.1 ‹_›)).symm

theorem execAll_cons {i : Instr} {s t : State} (h : exec i s = .next t) (rest : List Instr) :
    execAll (i :: rest) s = execAll rest t := by simp only [execAll, h]

@[simp] theorem execAll_nil (s : State) : execAll [] s = .next s := rfl

/-- Settles O36: each `INVERT` is a commit of the complement. -/
theorem invertTwiceRestores : Obligations.InvertTwiceRestores := by
  intro s hs ho
  obtain ⟨t, ht, -, heffect⟩ := invertComplementsTheFrontBuffer s (!s.inverted) hs
  obtain ⟨hcontrol, -, hcommit⟩ := heffect (by simp)
  obtain ⟨hfront, -, -, -, hdepth, -⟩ := hcommit ho
  have htinv := exec_inv ht hs
  have hflag : t.inverted = !s.inverted := hcontrol.inverted
  obtain ⟨u, hu, -, heffect'⟩ := invertComplementsTheFrontBuffer t s.inverted htinv
  obtain ⟨hcontrol', -, hcommit'⟩ := heffect' (by simp [hflag])
  obtain ⟨hfront', -, -, -, hdepth', -⟩ := hcommit' (not_not.2 hdepth)
  have htcfg : t.cfg = s.cfg := hcontrol.cfg
  have hucfg : u.cfg = s.cfg := hcontrol'.cfg.trans htcfg
  rw [htcfg] at hfront'
  refine ⟨u, by rw [execAll_cons ht, execAll_cons hu, execAll_nil], ?_, hcontrol'.inverted, not_not.2 hdepth'⟩
  exact eq_of_complement_twice hs.buffer (hucfg ▸ (exec_inv hu htinv).buffer) hfront hfront'

/-! ## Nested scopes -/

/-- What an open scope's `BEGIN_UPDATE` does to the depth, in one formula (R124). -/
theorem beginScope_depth {s : State} (ho : scopeOpen s) :
    beginScope s = { s with batchDepth := BitVec.ofNat 8 (min (s.batchDepth.toNat + 1) 255) } := by
  have hlt := s.batchDepth.isLt
  by_cases h : s.batchDepth.toNat < 255
  · rw [beginScope_inner ho h, min_eq_left (by omega), BitVec.ofNat_add]
    simp
  · have h255 : s.batchDepth.toNat = 255 := by omega
    rw [beginScope_saturated h255, h255]
    have hd : s.batchDepth = BitVec.ofNat 8 (min (255 + 1) 255) := BitVec.eq_of_toNat_eq h255
    rw [← hd]

theorem execAll_beginUpdates {s : State} (ho : scopeOpen s) (n : Nat) :
    execAll (List.replicate n .beginUpdate) s =
      .next { s with batchDepth := BitVec.ofNat 8 (min (s.batchDepth.toNat + n) 255) } := by
  induction n generalizing s with
  | zero =>
    have hd : BitVec.ofNat 8 (min (s.batchDepth.toNat + 0) 255) = s.batchDepth := by
      have := s.batchDepth.isLt
      exact BitVec.eq_of_toNat_eq (by rw [BitVec.toNat_ofNat]; omega)
    rw [hd]
    rfl
  | succ n ih =>
    have hexec : exec .beginUpdate s = .next (beginScope s) := rfl
    have hopen := beginScope_scopeOpen s
    have hsum : min (min (s.batchDepth.toNat + 1) 255 % 2 ^ 8 + n) 255 = min (s.batchDepth.toNat + (n + 1)) 255 := by
      omega
    rw [List.replicate_succ, execAll_cons hexec, ih hopen, beginScope_depth ho, BitVec.toNat_ofNat, hsum]

/-- Settles O42: the first opens a scope with the buffer copied, the others only count. -/
theorem scopeDepthSaturates : Obligations.ScopeDepthSaturates := by
  intro s n ho hn
  obtain ⟨k, rfl⟩ := Nat.exists_eq_add_of_lt hn
  have hexec : exec .beginUpdate s = .next { s with backBuffer := s.buffer, batchDepth := 1 } :=
    congrArg _ (beginScope_idle (not_not.1 ho))
  rw [Nat.zero_add, List.replicate_succ, execAll_cons hexec,
    execAll_beginUpdates (s := { s with backBuffer := s.buffer, batchDepth := 1 }) (by simp)]
  refine ⟨_, rfl, ?_, rfl, rfl, rfl, rfl⟩
  show (BitVec.ofNat 8 (min (1 + k) 255)).toNat = _
  rw [BitVec.toNat_ofNat]
  omega

/-- The close of the second of two scopes only counts (R125). -/
theorem endScope_second {s : State} (h : s.batchDepth = 2) : endScope s = { s with batchDepth := 1 } := by
  have hd : s.batchDepth - 1 = 1 := by rw [h]; decide
  rw [endScope_inner (by simp [h]) (by simp [h]), hd]

/-- The state after two scopes were opened around a pixel write and one was closed. -/
theorem execAll_nestedWrite {s : State} {x y : Int} (ho : ¬ scopeOpen s) (hr : inRange s.cfg x y) (on : Bool)
    (rest : List Instr) : execAll (.beginUpdate :: .beginUpdate :: .setPixel x y on :: .endUpdate :: rest) s =
      execAll rest { s with
        backBuffer := s.buffer.setBit (bitIndex s.cfg x y) on, dirty := true, batchDepth := 1 } := by
  have h1 : exec .beginUpdate s = .next { s with backBuffer := s.buffer, batchDepth := 1 } :=
    congrArg _ (beginScope_idle (not_not.1 ho))
  have h2 : exec .beginUpdate { s with backBuffer := s.buffer, batchDepth := 1 } =
      .next { s with backBuffer := s.buffer, batchDepth := 2 } := rfl
  have h3 : exec (.setPixel x y on) { s with backBuffer := s.buffer, batchDepth := 2 } = .next { s with
      backBuffer := s.buffer.setBit (bitIndex s.cfg x y) on, dirty := true, batchDepth := 2 } :=
    congrArg _ (setPixel_open (s := { s with backBuffer := s.buffer, batchDepth := 2 }) hr (by simp) on)
  have h4 : exec .endUpdate { s with
      backBuffer := s.buffer.setBit (bitIndex s.cfg x y) on, dirty := true, batchDepth := 2 } = .next { s with
      backBuffer := s.buffer.setBit (bitIndex s.cfg x y) on, dirty := true, batchDepth := 1 } :=
    congrArg _ (endScope_second rfl)
  rw [execAll_cons h1, execAll_cons h2, execAll_cons h3, execAll_cons h4]

/-- Settles O32: the second close is the commit of the pixel. -/
theorem nestedScopesCommitOnce : Obligations.NestedScopesCommitOnce := by
  intro s x y on hs ho hr
  refine ⟨⟨_, execAll_nestedWrite ho hr on [], rfl, rfl, rfl, rfl⟩, _,
    execAll_nestedWrite ho hr on [.endUpdate], ?_⟩
  have hcommit := commitScope_oneCommit (s := s) (wrote := true) (written := True) (iff_of_true rfl trivial)
    (setBit_painted hr hs.buffer on) nofun
  simp only [Bool.or_true] at hcommit
  obtain ⟨hfront, hold, hdirty, hforce, hdepth, hfired, hquiet⟩ := hcommit
  exact ⟨hfront, hold, hdepth, hdirty, hforce,
    fun h => hfired ⟨.inl trivial, h⟩, fun h => hquiet fun ⟨_, hf⟩ => h hf⟩

end Sys2Proof.Machine
end

section
/-! The raster engine: each shape is the drawing of its points in one scope (R161), so that its effect is read off the
members of the list of points. -/

namespace Sys2Proof.Machine

/-! ## Boxes, outlines, runs, discs -/

/-- Settles O43: the box offers the pixels of the clamped rectangle. -/
theorem drawBoxFillsTheClampedRectangle : Obligations.DrawBoxFillsTheClampedRectangle :=
  fun _ _ _ _ _ on hs => ⟨_, rfl, drawPoints_effect hs on fun _ _ _ => mem_boxPoints.symm⟩

/-- Settles O44: the outline offers the boundary of the extent. -/
theorem drawRectOutlinesTheExtent : Obligations.DrawRectOutlinesTheExtent :=
  fun _ _ _ _ _ hs => ⟨_, rfl, drawPoints_effect hs true fun _ _ _ => mem_rectPoints.symm⟩

/-- Settles O45: the points of a run, along one axis or the other. -/
theorem drawHLineAndVLineSetARun : Obligations.DrawHLineAndVLineSetARun := by
  refine fun s x y n hs => ⟨⟨_, rfl, drawPoints_effect hs true fun a b _ => mem_hlinePoints.symm⟩,
    ⟨_, rfl, drawPoints_effect hs true fun a b _ => ?_⟩⟩
  rw [mem_vlinePoints]
  exact and_rotate

/-- A coordinate of a point in a disc is at most the radius. -/
theorem le_radius_of_disc {r u v : Int} (hr : 0 ≤ r) (h : u * u + v * v ≤ r * r) : -r ≤ u ∧ u ≤ r := by
  have hu : u ^ 2 ≤ r ^ 2 := by nlinarith [mul_self_nonneg v]
  exact abs_le_of_sq_le_sq' hu hr

/-- Settles O50: within the disc the bounding box says no more than that the radius is not negative. -/
theorem fillCircleSetsTheDisc : Obligations.FillCircleSetsTheDisc := by
  refine fun s x0 y0 r hs => ⟨_, rfl, drawPoints_effect hs true fun a b _ => ?_⟩
  rw [mem_discPoints]
  constructor
  · rintro ⟨hlo, hhi, -, -, hdisc⟩
    exact ⟨by omega, hdisc⟩
  · rintro ⟨hr, hdisc⟩
    obtain ⟨hxlo, hxhi⟩ := le_radius_of_disc hr hdisc
    obtain ⟨hylo, hyhi⟩ := le_radius_of_disc hr ((add_comm _ _).trans_le hdisc)
    exact ⟨hxlo, hxhi, hylo, hyhi, hdisc⟩

/-- Settles O59: the columns and rows of the bitmap are counted from the place drawn at. -/
theorem drawXbmSetsTheSetBits : Obligations.DrawXbmSetsTheSetBits := by
  refine fun s x y w h bitmap hs => ⟨_, rfl, drawPoints_effect hs true fun a b _ => ?_⟩
  rw [mem_xbmPoints]
  constructor
  · rintro ⟨hxa, haw, hyb, hbh, hbit⟩
    exact ⟨(a - x).toNat, (b - y).toNat, by omega, by omega, hbit, by omega, by omega⟩
  · rintro ⟨i, j, hi, hj, hbit, rfl, rfl⟩
    rw [add_sub_cancel_left, add_sub_cancel_left, Int.toNat_natCast, Int.toNat_natCast]
    exact ⟨by omega, by omega, by omega, by omega, hbit⟩

/-! ## Lines -/

theorem mem_lineSteps_iff {a0 b0 a1 b1 : Int} (ha : a0 ≤ a1) (hs : ((b1 - b0).natAbs : Int) ≤ a1 - a0) {u v : Int} :
    (u, v) ∈ lineSteps a0 b0 a1 b1 ↔ onMajorLine a0 b0 a1 b1 u v := mem_lineSteps ha hs u v

theorem mem_lineOrdered {a0 b0 a1 b1 : Int} (hs : (b1 - b0).natAbs ≤ (a1 - a0).natAbs) {u v : Int} :
    (u, v) ∈ lineOrdered a0 b0 a1 b1 ↔
      if a1 < a0 then onMajorLine a1 b1 a0 b0 u v else onMajorLine a0 b0 a1 b1 u v := by
  unfold lineOrdered
  split <;> exact mem_lineSteps_iff (by omega) (by omega)

/-- The points of `Line` are those of `onLine` (R164). -/
theorem mem_linePoints {x0 y0 x1 y1 a b : Int} : (a, b) ∈ linePoints x0 y0 x1 y1 ↔ onLine x0 y0 x1 y1 a b := by
  unfold linePoints onLine
  by_cases hsteep : steep x0 y0 x1 y1
  · rw [if_pos hsteep, if_pos hsteep, ← mem_lineOrdered (by omega)]
    constructor
    · rintro h
      obtain ⟨⟨u, v⟩, hmem, he⟩ := List.mem_map.1 h
      cases he
      exact hmem
    · exact fun h => List.mem_map.2 ⟨(b, a), h, rfl⟩
  · rw [if_neg hsteep, if_neg hsteep]
    exact mem_lineOrdered (by omega)

/-- Settles O46: the loop offers the points of its closed form. -/
theorem drawLineSetsTheRoundedLine : Obligations.DrawLineSetsTheRoundedLine :=
  fun _ _ _ _ _ hs => ⟨_, rfl, drawPoints_effect hs true fun _ _ _ => mem_linePoints.symm⟩

/-- The line starts at its first endpoint. -/
theorem onMajorLine_start {a0 b0 a1 b1 : Int} (ha : a0 ≤ a1) : onMajorLine a0 b0 a1 b1 a0 b0 := by
  refine ⟨0, by simpa using ha, by simp, ?_⟩
  have hzero : (a1 - a0 - 1) / 2 / (a1 - a0) = 0 := by
    rcases Int.le_iff_eq_or_lt.1 ha with rfl | hlt
    · simp
    · exact Int.ediv_eq_zero_of_lt (by omega) (by omega)
  simp [hzero]

/-- It ends at its last endpoint: after all its steps the minor coordinate has moved by `dy` whole. -/
theorem onMajorLine_end {a0 b0 a1 b1 : Int} (ha : a0 ≤ a1) (hs : ((b1 - b0).natAbs : Int) ≤ a1 - a0) :
    onMajorLine a0 b0 a1 b1 a1 b1 := by
  refine ⟨(a1 - a0).toNat, by omega, by omega, ?_⟩
  rw [Int.toNat_of_nonneg (by omega)]
  rcases Int.le_iff_eq_or_lt.1 ha with rfl | hlt
  · simp
    omega
  · have hzero : (a1 - a0 - 1) / 2 / (a1 - a0) = 0 := Int.ediv_eq_zero_of_lt (by omega) (by omega)
    have hmoved : ((a1 - a0) * (b1 - b0).natAbs + (a1 - a0 - 1) / 2) / (a1 - a0) = (b1 - b0).natAbs := by
      rw [add_comm, Int.add_mul_ediv_left _ _ (by omega), hzero, zero_add]
    rw [hmoved]
    split <;> omega

theorem lineSteps_ends {a0 b0 a1 b1 : Int} (ha : a0 ≤ a1) (hs : ((b1 - b0).natAbs : Int) ≤ a1 - a0) :
    (a0, b0) ∈ lineSteps a0 b0 a1 b1 ∧ (a1, b1) ∈ lineSteps a0 b0 a1 b1 :=
  ⟨(mem_lineSteps_iff ha hs).2 (onMajorLine_start ha), (mem_lineSteps_iff ha hs).2 (onMajorLine_end ha hs)⟩

theorem lineOrdered_ends {a0 b0 a1 b1 : Int} (hs : (b1 - b0).natAbs ≤ (a1 - a0).natAbs) :
    (a0, b0) ∈ lineOrdered a0 b0 a1 b1 ∧ (a1, b1) ∈ lineOrdered a0 b0 a1 b1 := by
  unfold lineOrdered
  split
  · exact (lineSteps_ends (by omega) (by omega)).symm
  · exact lineSteps_ends (by omega) (by omega)

theorem lineOrdered_length (a0 b0 a1 b1 : Int) : (lineOrdered a0 b0 a1 b1).length = (a1 - a0).natAbs + 1 := by
  unfold lineOrdered lineSteps
  split <;> rw [lineLoop_length] <;> omega

/-- The order of the endpoints does not matter once they are ordered along the major axis: at equal major coordinates
the endpoints are one point. -/
theorem lineOrdered_symm {a0 b0 a1 b1 : Int} (hs : (b1 - b0).natAbs ≤ (a1 - a0).natAbs) :
    lineOrdered a0 b0 a1 b1 = lineOrdered a1 b1 a0 b0 := by
  unfold lineOrdered
  rcases lt_trichotomy a0 a1 with hlt | rfl | hlt
  · rw [if_neg (by omega), if_pos hlt]
  · obtain rfl : b0 = b1 := by omega
    rfl
  · rw [if_pos hlt, if_neg (by omega)]

theorem linePoints_symm (x0 y0 x1 y1 : Int) : linePoints x0 y0 x1 y1 = linePoints x1 y1 x0 y0 := by
  unfold linePoints
  by_cases hsteep : steep x0 y0 x1 y1
  · rw [if_pos hsteep, if_pos (by omega), lineOrdered_symm (by omega)]
  · rw [if_neg hsteep, if_neg (by omega), lineOrdered_symm (by omega)]

theorem linePoints_ends (x0 y0 x1 y1 : Int) :
    (x0, y0) ∈ linePoints x0 y0 x1 y1 ∧ (x1, y1) ∈ linePoints x0 y0 x1 y1 := by
  unfold linePoints
  split
  · obtain ⟨hstart, hend⟩ := lineOrdered_ends (a0 := y0) (b0 := x0) (a1 := y1) (b1 := x1) (by omega)
    exact ⟨List.mem_map.2 ⟨_, hstart, rfl⟩, List.mem_map.2 ⟨_, hend, rfl⟩⟩
  · exact lineOrdered_ends (by omega)

theorem linePoints_length (x0 y0 x1 y1 : Int) :
    (linePoints x0 y0 x1 y1).length = max (x1 - x0).natAbs (y1 - y0).natAbs + 1 := by
  unfold linePoints
  split
  · rw [List.length_map, lineOrdered_length, max_eq_right (by omega)]
  · rw [lineOrdered_length, max_eq_left (by omega)]

/-- Settles O47: the three properties of the list of points. -/
theorem lineIsInclusiveAndSymmetric : Obligations.LineIsInclusiveAndSymmetric := by
  intro x0 y0 x1 y1
  obtain ⟨hstart, hend⟩ := linePoints_ends x0 y0 x1 y1
  refine ⟨fun s => ?_, hstart, hend, linePoints_length x0 y0 x1 y1⟩
  exact congrArg (fun points => Host.Outcome.next (drawPoints points true s)) (linePoints_symm x0 y0 x1 y1)

/-! ## Circles -/

theorem not_onCircle_of_neg {x0 y0 r a b : Int} (hr : r < 0) : ¬ onCircle x0 y0 r a b := by
  rintro (⟨rfl, -⟩ | ⟨h, -⟩) <;> omega

theorem onCircle_zero {x0 y0 a b : Int} : onCircle x0 y0 0 a b ↔ a = x0 ∧ b = y0 := by
  constructor
  · rintro (⟨-, h⟩ | ⟨h, -⟩)
    · exact h
    · omega
  · exact fun h => .inl ⟨rfl, h⟩

/-- Settles O48: at radius 0 and below, the points of `onCircle` are the centre and none. -/
theorem drawCircleSetsTheMidpointOutline : Obligations.DrawCircleSetsTheMidpointOutline := by
  intro s x0 y0 r hs
  refine ⟨_, rfl, drawPoints_effect hs true fun a b _ => mem_circlePoints.symm, fun hr => ?_, fun hr => ?_⟩
  · subst hr
    exact drawPoints_effect hs true fun a b _ => onCircle_zero.symm.trans mem_circlePoints.symm
  · refine drawPoints_effect hs true fun a b _ => ?_
    rw [mem_circlePoints, iff_false_intro (not_onCircle_of_neg hr)]

/-- A point near the circle is within the radius of its equation: its greater distance is at most the radius. -/
theorem nearCircle_bound {r u v : Int} (hr : 1 ≤ r) (hv : 0 ≤ v) (h : nearCircle r u v) :
    -r ≤ u * u + v * v - r * r ∧ u * u + v * v - r * r ≤ r := by
  obtain ⟨hlo, hhi⟩ := h
  have hvr : v ≤ r := by
    by_contra hlt
    nlinarith [mul_self_nonneg u]
  constructor <;> omega

/-- A point given from the centre is on the circle by its two distances only. -/
theorem onCircle_from_centre {x0 y0 r a b : Int} : onCircle x0 y0 r (x0 + a) (y0 + b) ↔
    (r = 0 ∧ a = 0 ∧ b = 0) ∨
      (1 ≤ r ∧ nearCircle r (min a.natAbs b.natAbs : Nat) (max a.natAbs b.natAbs : Nat)) := by
  unfold onCircle
  rw [add_sub_cancel_left, add_sub_cancel_left, add_eq_left, add_eq_left]

theorem min_max_sq (a b : Int) :
    ((min a.natAbs b.natAbs : Nat) : Int) * (min a.natAbs b.natAbs : Nat) +
      (max a.natAbs b.natAbs : Nat) * (max a.natAbs b.natAbs : Nat) = a * a + b * b := by
  rcases le_total a.natAbs b.natAbs with h | h
  · rw [min_eq_left h, max_eq_right h, Int.natAbs_mul_self', Int.natAbs_mul_self']
  · rw [min_eq_right h, max_eq_left h, Int.natAbs_mul_self', Int.natAbs_mul_self', add_comm]

/-- Settles O49: the reflections keep the two distances, or exchange them. -/
theorem circleIsASymmetricOutline : Obligations.CircleIsASymmetricOutline := by
  intro x0 y0 r a b h
  simp only [mem_circlePoints, sub_eq_add_neg x0 a, sub_eq_add_neg y0 b, onCircle_from_centre, Int.natAbs_neg,
    neg_eq_zero] at h ⊢
  refine ⟨h, h, ?_, ?_⟩
  · rwa [min_comm b.natAbs, max_comm b.natAbs, and_comm (a := b = 0)]
  · rcases h with ⟨rfl, rfl, rfl⟩ | ⟨hr, hnear⟩
    · decide
    · rw [← min_max_sq a b]
      exact nearCircle_bound hr (Int.natCast_nonneg _) hnear

/-! ## Triangles -/

/-- Settles O51: the body draws the points of the three lines, each in a scope of its own. -/
theorem drawTriangleSetsThreeLines : Obligations.DrawTriangleSetsThreeLines := by
  refine fun s x0 y0 x1 y1 x2 y2 hs => ⟨_, rfl, inScope_effect hs (drawsOpen_threeLines s.cfg x0 y0 x1 y1 x2 y2) ?_⟩
  intro a b _
  simp only [List.mem_append, mem_linePoints, or_assoc]

/-- Vertices all on one row give no row to draw (R173). -/
theorem triangleRuns_flat {v0 v1 v2 : Point} (h01 : v0.2 = v1.2) (h12 : v1.2 = v2.2) : triangleRuns v0 v1 v2 = [] :=
  List.eq_nil_iff_forall_not_mem.2 fun q hq => exists_triangleRuns.1 ⟨q, hq⟩ ⟨h01, h12⟩

/-- Settles O52: the rows drawn are those of the two passes; with none to draw the scope stays as it was opened. -/
theorem fillTriangleSetsTwoPasses : Obligations.FillTriangleSetsTwoPasses := by
  intro s x0 y0 x1 y1 x2 y2 hs
  have hbody := drawsOpen_triangleRuns s.cfg (x0, y0) (x1, y1) (x2, y2)
  refine ⟨_, rfl, inScope_effect hs hbody fun a b _ => mem_triangleRuns.symm, fun h01 h12 => ?_⟩
  have hflat := hbody.congr (n' := False) (iff_false_intro (not_not.2 ⟨h01, h12⟩))
  refine inScope_effect hs hflat fun a b _ => ?_
  rw [triangleRuns_flat (v0 := (x0, y0)) (v1 := (x1, y1)) (v2 := (x2, y2)) h01 h12]
  simp

/-- Settles O53, by the order of the three keys; two of the eight cases are no order. -/
theorem vertexSortIsStable : Obligations.VertexSortIsStable := by
  intro v0 v1 v2
  rcases lt_or_ge v1.2 v0.2 with h01 | h01 <;> rcases lt_or_ge v2.2 v1.2 with h12 | h12 <;>
    rcases lt_or_ge v2.2 v0.2 with h02 | h02
  case inl.inl.inr => omega
  case inr.inr.inl => omega
  all_goals
    simp (disch := omega) only [sortVertices, orderByY, List.insertionSort, List.foldr, List.orderedInsert,
      if_pos, if_neg]

/-- Division truncated toward zero, by a positive number: its product back is at most the dividend in magnitude, within
the divisor of it, and of its sign. -/
theorem tdiv_truncates {num den : Int} (hden : 0 < den) :
    (num.tdiv den * den).natAbs ≤ num.natAbs ∧ (num.natAbs : Int) < (num.tdiv den * den).natAbs + den ∧
      0 ≤ num.tdiv den * num := by
  have habs : (num.tdiv den * den).natAbs = den.natAbs * (num.natAbs / den.natAbs) := by
    rw [Int.natAbs_mul, Int.natAbs_tdiv, Nat.mul_comm]
    rfl
  have hmod := Nat.mod_lt num.natAbs (Int.natAbs_pos.2 hden.ne')
  have hdiv := Nat.div_add_mod num.natAbs den.natAbs
  refine ⟨by omega, by omega, ?_⟩
  rcases le_total 0 num with h | h
  · exact mul_nonneg (Int.tdiv_nonneg h hden.le) h
  · have hneg : 0 ≤ (-num).tdiv den := Int.tdiv_nonneg (by omega) hden.le
    rw [Int.neg_tdiv] at hneg
    exact mul_nonneg_of_nonpos_of_nonpos (by omega) h

/-- Settles O54: at the ends of the edge the division leaves nothing over. -/
theorem edgeXTruncatesTowardZero : Obligations.EdgeXTruncatesTowardZero := by
  intro a b y hab
  have hden : 0 < b.2 - a.2 := by omega
  obtain ⟨hle, hlt, hsign⟩ := tdiv_truncates (num := a.1 * (b.2 - a.2) + (b.1 - a.1) * (y - a.2)) hden
  refine ⟨hle, hlt, hsign, ?_, ?_⟩
  · rw [edgeX, sub_self, mul_zero, add_zero, Int.mul_tdiv_cancel _ hden.ne']
  · rw [edgeX, ← add_mul, add_sub_cancel, Int.mul_tdiv_cancel _ hden.ne']

end Sys2Proof.Machine
end

section
/-! Glyphs and text: what a character paints (R191), the blank space (R193), the text cursor (R196), and a printed
string as one commit (R199). -/

namespace Sys2Proof.Machine

/-! ## Characters -/

/-- A code without a glyph is a complete no-op (R191). -/
theorem drawGlyph_of_not_printable {c : Nat} (hc : ¬ printable c) (x y : Int) (color : Bool) (size : Nat) (s : State) :
    drawGlyph x y c color size s = s := if_neg hc

/-- A glyph is drawn in one scope (R191). -/
theorem drawGlyph_of_printable {c : Nat} (hc : printable c) (x y : Int) (color : Bool) (size : Nat) (s : State) :
    drawGlyph x y c color size s =
      inScope (fun s => (glyphPixels s.cfg c).foldl (fun s q => drawGlyphPixel x y color size q s) s) s := if_pos hc

theorem drawGlyph_effect {s : State} (hs : s.Inv) {c : Nat} (hc : printable c) (x y : Int) (color : Bool) (size : Nat) :
    DrawEffect (glyphNests s.cfg c size) (inGlyph s.cfg x y c size) color s (drawGlyph x y c color size s) := by
  rw [drawGlyph_of_printable hc]
  exact inScope_effect hs (drawsOpen_glyph s.cfg x y c color size) fun a b hr => mem_glyphPoints hr

/-- Settles O55: a code has a glyph, drawn in one scope, or is a no-op. -/
theorem drawCharPaintsSetGlyphBits : Obligations.DrawCharPaintsSetGlyphBits :=
  fun s x y c size color hs => ⟨_, rfl, fun hc => drawGlyph_of_not_printable (by omega) x y color size s,
    fun hlo hhi => drawGlyph_effect hs ⟨hlo, hhi⟩ x y color size⟩

/-- The glyph table gives the space no set pixel (R66). -/
theorem glyphPixels_space {p : Params} (hp : p.wf) : glyphPixels p 0x20 = [] := by
  obtain ⟨-, -, -, -, -, hspace⟩ := hp
  refine List.eq_nil_iff_forall_not_mem.2 fun ⟨col, row⟩ hq => ?_
  obtain ⟨hcol, -, hbit⟩ := mem_glyphPixels.1 hq
  have hcolumn : p.glyphRom.getD col 0 = 0 := by
    have htake : (p.glyphRom.take 5).getD col 0 = p.glyphRom.getD col 0 := by
      rw [List.getD_eq_getElem?_getD, List.getElem?_take_of_lt hcol, ← List.getD_eq_getElem?_getD]
    rw [← htake, hspace]
    interval_cases col <;> rfl
  rw [glyphBit, Nat.sub_self, Nat.mul_zero, Nat.zero_add, hcolumn] at hbit
  simp at hbit

/-- With no scope open and no flag set, a procedure that draws no point seeds the back buffer and does nothing else. -/
theorem inScope_of_no_points {s : State} {on : Bool} {nests : Prop} {body : State → State}
    (hb : DrawsOpen s.cfg [] on nests body) (ho : ¬ scopeOpen s) (hd : s.dirty = false) (hf : s.forceUpdate = false) :
    inScope body s = { s with backBuffer := s.buffer } := by
  have h0 : s.batchDepth = 0 := not_not.1 ho
  have hseeded : ({ s with
      backBuffer := paint s.cfg [] on s.buffer
      dirty := s.dirty || anyInRange s.cfg []
      batchDepth := 0 } : State) = { s with backBuffer := s.buffer } := by
    cases s
    cases hd
    cases h0
    rfl
  rw [inScope_cases_idle hb h0, hseeded]
  exact commitScope_clean hd hf

/-- Settles O56: the space paints no point. -/
theorem spaceIsBlank : Obligations.SpaceIsBlank := by
  intro s x y size color hs ho hd hf
  have hbody := drawsOpen_glyph s.cfg x y 0x20 color size
  rw [glyphPixels_space hs.cfg, List.flatMap_nil] at hbody
  have hglyph : drawGlyph x y 0x20 color size s = { s with backBuffer := s.buffer } :=
    (drawGlyph_of_printable (by decide) x y color size s).trans (inScope_of_no_points hbody ho hd hf)
  exact congrArg _ hglyph

/-! ## The text cursor -/

/-- `wrap16` makes the cursor advance modulo 2^16 (R13, R196). -/
theorem wrap16_add_toNat (x : Half) (n : Nat) : (wrap16 (x.toInt + n)).toNat = (x.toNat + n) % 65536 := by
  rw [wrap16, BitVec.ofInt_add, BitVec.ofInt_toInt, BitVec.ofInt_natCast, BitVec.toNat_add, BitVec.toNat_ofNat,
    Nat.add_mod_mod]

theorem execWrite_lineFeed (s : State) : execWrite 0x0A s =
    .next { s with cursorY := wrap16 (s.cursorY.toInt + 8 * s.textSize.toNat), cursorX := 0 } := rfl

theorem execWrite_carriageReturn (s : State) : execWrite 0x0D s = .next s := rfl

theorem execWrite_character {c : Nat} (hlf : c ≠ 0x0A) (hcr : c ≠ 0x0D) (s : State) : execWrite c s =
    .next { drawGlyph s.cursorX.toInt s.cursorY.toInt c true s.textSize.toNat s with
      cursorX := wrap16 (s.cursorX.toInt + 5 * s.textSize.toNat) } := by
  rw [execWrite, if_neg hlf, if_neg hcr]

/-- Settles O58, by the three kinds of code. -/
theorem writeDrawsAndAdvances : Obligations.WriteDrawsAndAdvances := by
  refine fun s c hs _ => ⟨fun hc => ?_, fun hc => hc ▸ execWrite_carriageReturn s, fun hlf hcr => ?_⟩
  · exact ⟨_, hc ▸ execWrite_lineFeed s, rfl, wrap16_add_toNat s.cursorY (8 * s.textSize.toNat)⟩
  · exact ⟨_, _, execWrite_character hlf hcr s, rfl, wrap16_add_toNat s.cursorX (5 * s.textSize.toNat),
      fun hc => drawGlyph_of_not_printable (by omega) _ _ true _ s,
      fun hlo hhi => drawGlyph_effect hs ⟨hlo, hhi⟩ _ _ true _⟩

/-! ## A string in one scope -/

theorem execAll_append {l : List Instr} {s t : State} (h : execAll l s = .next t) (rest : List Instr) :
    execAll (l ++ rest) s = execAll rest t := by
  induction l generalizing s with
  | nil =>
    cases h
    rfl
  | cons i l ih =>
    obtain ⟨u, hu⟩ := exec_completes i s
    rw [execAll_cons hu] at h
    rw [List.cons_append, execAll_cons hu, ih h]

theorem commitScope_batchDepth (s : State) : (commitScope s).batchDepth = s.batchDepth := by
  rcases commitScope_cases s with ⟨-, -, he⟩ | ⟨-, -, he⟩ | ⟨-, he⟩ <;> rw [he]

/-- Within the scope that a `PRINT` from `s` opens: nothing of it is visible yet. -/
structure PrintOpen (s u : State) : Prop where
  depth : u.batchDepth = 1
  buffer : u.buffer = s.buffer
  events : u.events = s.events
  lastUpdateTime : u.lastUpdateTime = s.lastUpdateTime
  now : u.now = s.now

/-- A glyph drawn in a scope at depth 1 leaves it at depth 1, whatever boxes it nests. -/
theorem drawGlyph_depth {s : State} (h : s.batchDepth = 1) (x y : Int) (c : Nat) (color : Bool) (size : Nat) :
    (drawGlyph x y c color size s).batchDepth = 1 := by
  by_cases hc : printable c
  · rw [drawGlyph_of_printable hc]
    obtain ⟨d, he, -, hflat, hnested⟩ := inScope_cases_open (drawsOpen_glyph s.cfg x y c color size) (by simp [h])
    rw [h] at hflat hnested
    have hd : d.toNat = 1 := by
      by_cases hn : glyphNests s.cfg c size
      · exact hnested hn
      · exact hflat hn
    rw [he]
    exact BitVec.eq_of_toNat_eq hd
  · rwa [drawGlyph_of_not_printable hc]

theorem execWrite_depth {c : Nat} {s t : State} (h : s.batchDepth = 1) (ht : execWrite c s = .next t) :
    t.batchDepth = 1 := by
  by_cases hlf : c = 0x0A
  · subst hlf
    cases (execWrite_lineFeed s).symm.trans ht
    exact h
  · by_cases hcr : c = 0x0D
    · subst hcr
      cases (execWrite_carriageReturn s).symm.trans ht
      exact h
    · cases (execWrite_character hlf hcr s).symm.trans ht
      exact drawGlyph_depth h ..

theorem write_printOpen {s u : State} (h : PrintOpen s u) (c : Nat) :
    ∃ v, exec (.write c) u = .next v ∧ PrintOpen s v := by
  obtain ⟨v, hv⟩ := exec_completes (.write c) u
  obtain ⟨-, hbuffer, hevents, htime⟩ := openScopeHidesEveryWrite (.write c) u v (by simp [h.depth]) (.inl nofun) hv
  obtain ⟨-, hnow, -⟩ := registerWrites_unwritten (.write c) u
  exact ⟨v, hv, execWrite_depth h.depth hv, hbuffer.trans h.buffer, hevents.trans h.events,
    htime.trans h.lastUpdateTime, ((control_of_exec hv).now.trans hnow).trans h.now⟩

theorem writes_printOpen (str : List Byte) {s u : State} (h : PrintOpen s u) :
    ∃ v, execAll (str.map fun c => .write c.toNat) u = .next v ∧ PrintOpen s v := by
  induction str generalizing u with
  | nil => exact ⟨u, rfl, h⟩
  | cons c str ih =>
    obtain ⟨v, hv, hopen⟩ := write_printOpen h c.toNat
    obtain ⟨w, hw, hopen'⟩ := ih hopen
    exact ⟨w, by rw [List.map_cons, execAll_cons hv, hw], hopen'⟩

/-- The scope opened and some of the string written. -/
theorem begin_writes_printOpen (str : List Byte) {s : State} (ho : ¬ scopeOpen s) :
    ∃ v, execAll (.beginUpdate :: str.map fun c => .write c.toNat) s = .next v ∧ PrintOpen s v := by
  have hbegin : exec .beginUpdate s = .next { s with backBuffer := s.buffer, batchDepth := 1 } :=
    congrArg _ (beginScope_idle (not_not.1 ho))
  rw [execAll_cons hbegin]
  exact writes_printOpen str ⟨rfl, rfl, rfl, rfl, rfl⟩

/-- All of a `PRINT` but its last command, cut anywhere, opens the scope and writes some of the string. -/
theorem take_printCommands {str : List Byte} {k : Nat} (hk : k ≤ str.length) :
    (printCommands str).take (k + 1) = .beginUpdate :: (str.take k).map fun c => .write c.toNat := by
  rw [printCommands, List.cons_append, List.take_succ_cons, List.take_append_of_le_length (by simpa using hk),
    List.map_take]

/-- Settles O60: until the last command the scope is open, and the last is its one commit. -/
theorem printCommitsOnce : Obligations.PrintCommitsOnce := by
  intro s str _ ho
  refine ⟨fun k hk => ?_, ?_⟩
  · match k with
    | 0 => exact ⟨s, rfl, rfl, rfl, rfl⟩
    | k + 1 =>
      have hk' : k ≤ str.length := by
        simp [printCommands] at hk
        omega
      obtain ⟨v, hv, hopen⟩ := begin_writes_printOpen (str.take k) ho
      exact ⟨v, by rw [take_printCommands hk', hv], hopen.buffer, hopen.events, hopen.lastUpdateTime⟩
  · obtain ⟨v, hv, hopen⟩ := begin_writes_printOpen str ho
    have hend : exec .endUpdate v = .next (commitScope { v with batchDepth := 0 }) :=
      congrArg _ (endScope_outermost hopen.depth)
    refine ⟨_, (execAll_append hv [.endUpdate]).trans (execAll_cons hend []), ?_, rfl, rfl, ?_⟩
    · exact not_not.2 (commitScope_batchDepth { v with batchDepth := 0 })
    · rcases flushesOnce_commitScope { v with batchDepth := 0 } with ⟨he, -⟩ | ⟨he, -⟩
      · exact .inl (he.trans hopen.events)
      · rw [he, hopen.events, hopen.now]
        exact .inr rfl

end Sys2Proof.Machine
end
